-- ==== Sys2Proof/Word.lean ====
section
/-! DEFINITION. The data of the block: words, letter codes, symbols, letters, tables (00_scope.md §4.1, R6). -/

namespace Sys2Proof

/-- A command word or a response word: 24 bits, bit 0 the least significant (R45, R46, R54). -/
abbrev Word := BitVec 24

/-- A 5-bit letter code: 0..25 are the letters, 26..31 are not letters (R32). -/
abbrev Code := BitVec 5

/-- A message symbol: an 8-bit character code (R34). -/
abbrev Symbol := BitVec 8

/-- A letter: an integer in [0, 26), `A` = 0 .. `Z` = 25 (R31). -/
abbrev Letter := Fin 26

/-- A table of the block: 26 entries of 5 bits, indexed by alphabet position (R30). -/
abbrev Table := Vector Code 26

end Sys2Proof
end

