-- ==== Sys2Proof/Config.lean ====
section
/-! DEFINITION. What the spec leaves open: the free values of 93_implementation_defined.md §1.2, and the open parameter of the
host's text adapter (R140). -/

namespace Sys2Proof

/-- FREE VALUE, DESIGN CHOICE (log 4): what `InvLookup(t, c)` gives when the table holds `c` at no position or at several
(U2, R68: "any value"). It has no body, so no proof can know it. -/
opaque Config.freeInverse : Table → Letter → Letter

/-- FREE VALUE, DESIGN CHOICE (log 5): the letter a cipher function goes on with when a table entry it must use as a letter is
one of the codes 26..31 (U4, U5, U6: "any value"). It has no body, so no proof can know it. -/
opaque Config.freeLetter : Code → Letter

/-- `OFFSET_PARSE_POLICY` (R6, R140, U1): OPEN. It acts in a host adapter that takes offsets as text, never in the block; the
adapter's function takes it as an argument (log 11). -/
inductive OffsetParsePolicy where
  | permissive
  | strict
  deriving DecidableEq, Repr

end Sys2Proof
end

