-- ==== Sys2Proof/Syntax.lean ====
section
/-! DEFINITION. The command set ENG-CMD/1: one constructor of `Instr` for each row of spec/opcode_table.json (R46, R47). -/

namespace Sys2Proof

/-- The four wiring tables that `WRW` addresses (R39, R48). -/
inductive WiringTable where
  | u
  | w1
  | w2
  | w3
  deriving DecidableEq, Repr

/-- The three rotor slots: rotor 1 left and slowest, rotor 2 middle, rotor 3 right and fastest (R9). -/
inductive Slot where
  | one
  | two
  | three
  deriving DecidableEq, Repr

/-- The nine commands. The fields are R48's, with the values the bits can carry: `idx` 26..31 and `sel` = 0 can be written
down here and are what WellFormed.lean refuses (R51). -/
inductive Instr where
  /-- R110 -/
  | nop
  /-- R111: table, index, value -/
  | wrw (tbl : WiringTable) (idx val : Code)
  /-- R104: register selector, two's complement offset -/
  | setk (sel : BitVec 2) (imm : BitVec 8)
  /-- R91: the two letter codes of a plugboard pair -/
  | pair (a b : Code)
  /-- R112 -/
  | start
  /-- R114: the message symbol -/
  | char (sym : Symbol)
  /-- R117 -/
  | stop
  /-- R105 -/
  | rdk
  /-- R118 -/
  | rdst
  deriving DecidableEq, Repr

/-- The names of the rows of the opcode map (R47). -/
inductive Mnemonic where
  | nop
  | wrw
  | setk
  | pair
  | start
  | char
  | stop
  | rdk
  | rdst
  deriving DecidableEq, Repr

/-- The row of the opcode map that a command belongs to (R47). -/
def Instr.mnemonic : Instr → Mnemonic
  | .nop => .nop
  | .wrw _ _ _ => .wrw
  | .setk _ _ => .setk
  | .pair _ _ => .pair
  | .start => .start
  | .char _ => .char
  | .stop => .stop
  | .rdk => .rdk
  | .rdst => .rdst

/-- Why a word spells no command (R49, R50, R51). The port answers every one of them `REFUSED ILLEGAL`. -/
inductive Illegal where
  /-- `op` is 0x9..0xF (R50). -/
  | reservedOpcode
  /-- A 1 in a zero field of the format (R49). -/
  | zeroField
  /-- `WRW` with `idx` in 26..31 (R51). -/
  | indexOutOfRange
  /-- `SETK` with `sel` = 0 (R51). -/
  | selectorZero
  deriving DecidableEq, Repr

/-- One row of the opcode map: a word `w` selects it when `w &&& mask = pattern` (R47). -/
structure OpcodeRow where
  mnemonic : Mnemonic
  pattern : Word
  mask : Word
  deriving DecidableEq, Repr

end Sys2Proof
end

