-- ==== Sys2Proof/WellFormed.lean ====
section
/-! DEFINITION. Which commands the encoding admits: the two field values that R51 refuses. -/

namespace Sys2Proof

/-- `WRW` addresses an existing entry and `SETK` an existing register; no other field value is refused: `val`, `a`, `b` are data
(R51). -/
def Instr.wellFormed : Instr → Bool
  | .nop => true
  | .wrw _ idx _ => decide (idx.toNat < 26)
  | .setk sel _ => decide (sel ≠ 0)
  | .pair _ _ => true
  | .start => true
  | .char _ => true
  | .stop => true
  | .rdk => true
  | .rdst => true

end Sys2Proof
end

