-- ==== Sys2Proof/Decode.lean ====
section
/-! DEFINITION. Decoding of command words, total on all 2^24 words (R53), and the encoder (R46 to R48). The command port carries
24-bit words, not bytes: there is no byte order to fix (R36, R46). -/

namespace Sys2Proof

/-- `op = cmd[23:20]` (R46). -/
def opField (w : Word) : BitVec 4 := w.extractLsb' 20 4

/-- `tbl = cmd[19:18]` (R46). -/
def tblField (w : Word) : BitVec 2 := w.extractLsb' 18 2

/-- `idx = cmd[17:13]` (R46). -/
def idxField (w : Word) : Code := w.extractLsb' 13 5

/-- `val = cmd[12:8]` (R46). -/
def valField (w : Word) : Code := w.extractLsb' 8 5

/-- `sel = cmd[19:18]` (R46). -/
def selField (w : Word) : BitVec 2 := w.extractLsb' 18 2

/-- `imm = cmd[7:0]` (R46). -/
def immField (w : Word) : BitVec 8 := w.extractLsb' 0 8

/-- `a = cmd[19:15]` (R46). -/
def aField (w : Word) : Code := w.extractLsb' 15 5

/-- `b = cmd[14:10]` (R46). -/
def bField (w : Word) : Code := w.extractLsb' 10 5

/-- `sym = cmd[7:0]` (R46). -/
def symField (w : Word) : Symbol := w.extractLsb' 0 8

/-- The `tbl` codes: 0 = `U`, 1 = `W1`, 2 = `W2`, 3 = `W3` (R39, R48). -/
def WiringTable.ofCode (c : BitVec 2) : WiringTable :=
  match c.toNat with
  | 0 => .u
  | 1 => .w1
  | 2 => .w2
  | _ => .w3

/-- The `tbl` code of a table (R39, R48). -/
def WiringTable.code : WiringTable → BitVec 2
  | .u => 0
  | .w1 => 1
  | .w2 => 2
  | .w3 => 3

/-- The bits that must be 0 in the format that `op` selects (R49; the values are R53's `zero_mask`). -/
def zeroMask (op : BitVec 4) : Word :=
  match op.toNat with
  | 0 => 0x0FFFFF
  | 1 => 0x0000FF
  | 2 => 0x03FF00
  | 3 => 0x0003FF
  | 4 => 0x0FFFFF
  | 5 => 0x0FFF00
  | 6 => 0x0FFFFF
  | 7 => 0x0FFFFF
  | 8 => 0x0FFFFF
  | _ => 0

/-- The command of the row with the opcode `op`, with the fields of R48; none for the reserved opcodes 0x9..0xF (R47, R50). -/
def rowAt (op : Nat) (w : Word) : Option Instr :=
  match op with
  | 0 => some .nop
  | 1 => some (.wrw (WiringTable.ofCode (tblField w)) (idxField w) (valField w))
  | 2 => some (.setk (selField w) (immField w))
  | 3 => some (.pair (aField w) (bField w))
  | 4 => some .start
  | 5 => some (.char (symField w))
  | 6 => some .stop
  | 7 => some .rdk
  | 8 => some .rdst
  | _ => none

/-- The command of the row that the word's own opcode selects (R47). -/
def rowOf (w : Word) : Option Instr := rowAt (opField w).toNat w

/-- The two field values that are refused (R51). -/
def checkFields (i : Instr) : Except Illegal Instr :=
  match i with
  | .wrw tbl idx val => if 26 ≤ idx.toNat then .error .indexOutOfRange else .ok (.wrw tbl idx val)
  | .setk sel imm => if sel = 0 then .error .selectorZero else .ok (.setk sel imm)
  | .nop => .ok .nop
  | .pair a b => .ok (.pair a b)
  | .start => .ok .start
  | .char sym => .ok (.char sym)
  | .stop => .ok .stop
  | .rdk => .ok .rdk
  | .rdst => .ok .rdst

/-- The decoding procedure, its tests in R53's order: the opcode, the zero field, the index, the selector. -/
def decode (w : Word) : Except Illegal Instr :=
  match rowOf w with
  | none => .error .reservedOpcode
  | some i => if w &&& zeroMask (opField w) ≠ 0 then .error .zeroField else checkFields i

/-- The opcode of a command (R47). -/
def Instr.opcode : Instr → BitVec 4
  | .nop => 0
  | .wrw _ _ _ => 1
  | .setk _ _ => 2
  | .pair _ _ => 3
  | .start => 4
  | .char _ => 5
  | .stop => 6
  | .rdk => 7
  | .rdst => 8

/-- The word of a command, its fields from the most significant bit down as R46 lays them out. -/
def encode (i : Instr) : Word :=
  match i with
  | .nop => i.opcode ++ 0#20
  | .wrw tbl idx val => i.opcode ++ tbl.code ++ idx ++ val ++ 0#8
  | .setk sel imm => i.opcode ++ sel ++ 0#10 ++ imm
  | .pair a b => i.opcode ++ a ++ b ++ 0#10
  | .start => i.opcode ++ 0#20
  | .char sym => i.opcode ++ 0#12 ++ sym
  | .stop => i.opcode ++ 0#20
  | .rdk => i.opcode ++ 0#20
  | .rdst => i.opcode ++ 0#20

/-- The opcode map as R47 prints it: mnemonic, match, mask. -/
def opcodeMap : List OpcodeRow :=
  [⟨.nop, 0x000000, 0xFFFFFF⟩, ⟨.wrw, 0x100000, 0xF000FF⟩, ⟨.setk, 0x200000, 0xF3FF00⟩,
   ⟨.pair, 0x300000, 0xF003FF⟩, ⟨.start, 0x400000, 0xFFFFFF⟩, ⟨.char, 0x500000, 0xFFFF00⟩,
   ⟨.stop, 0x600000, 0xFFFFFF⟩, ⟨.rdk, 0x700000, 0xFFFFFF⟩, ⟨.rdst, 0x800000, 0xFFFFFF⟩]

/-- `w & mask == match` (R47). -/
def OpcodeRow.selects (r : OpcodeRow) (w : Word) : Bool := w &&& r.mask == r.pattern

/-- The instruction the decoder reads from the bits `w` of an instruction of `nbits` bits, numbered as spec/opcode_table.json
numbers them. A command is one 24-bit word (R46): bits above `nbits` are 0, and a number with a bit above bit 23 is no command
word (log 10). -/
def decodeTableWord (nbits w : Nat) : Option Instr :=
  let bits := w % 2 ^ nbits
  if bits < 2 ^ 24 then (decode (BitVec.ofNat 24 bits)).toOption else none

end Sys2Proof
end

