-- ==== Sys2Proof/Machine/State.lean ====
section
/-! DEFINITION. The state of the block (10_state.md R10: "the following list and nothing else"), what stands on its two ports
(30_encoding.md R45), and the state after reset (R25, R156). -/

namespace Sys2Proof.Machine

/-- `MODE`, with its three legal values; the code 3 is never held (R16, V10; log 6). -/
inductive Mode where
  | config
  | run
  | fault
  deriving DecidableEq, Repr

/-- The reason of a refusal (R144). -/
inductive Reason where
  | illegal
  | wrongMode
  deriving DecidableEq, Repr

/-- The three outcomes of a command (R136), with the data each carries (R55). -/
inductive Response where
  | ok (data : BitVec 22)
  | refused (why : Reason)
  | error (e : BitVec 7)
  deriving DecidableEq, Repr

/-- The offset triple (k1, k2, k3): the registers `K[1]`, `K[2]`, `K[3]`, 5 bits each (R11). -/
structure Offsets where
  k1 : Code
  k2 : Code
  k3 : Code
  deriving DecidableEq, Repr

/-- The complete state of one instance of the block: exactly R10's list. -/
structure Block where
  /-- `K[1..3]` (R11) -/
  k : Offsets
  /-- `W1` (R13) -/
  w1 : Table
  /-- `W2` (R13) -/
  w2 : Table
  /-- `W3` (R13) -/
  w3 : Table
  /-- `U` (R14) -/
  u : Table
  /-- `PM` (R20) -/
  pm : Table
  /-- `USED` (R19) -/
  used : BitVec 26
  /-- `PCONF` (R18) -/
  pconf : Bool
  /-- `MODE` (R16) -/
  mode : Mode
  /-- `ERR` (R17) -/
  err : BitVec 7
  deriving DecidableEq, Repr

/-- What the host may do to the block: present a command word, or assert and release reset (R7, R157). -/
inductive HostEvent where
  | command (w : Word)
  | reset
  deriving DecidableEq, Repr

/-- The block, and what stands on its two ports. The ports are not state of the block (R23): `pending` is what the host will
present, the next event first; `responses` is what the block has answered, the oldest first (R45, R40; log 1). -/
structure State extends Block where
  pending : List HostEvent
  responses : List Word
  deriving DecidableEq, Repr

/-- The reasons the machine stops with a fault: none. "There is no fourth outcome: the block never hangs, never gives an undefined
result, never stops answering" (R136); 93_implementation_defined.md §1.4: nothing is to be treated as `stuck`. -/
inductive Fault where
  deriving DecidableEq, Repr

/-- The reasons the MODEL gives no meaning. The block's own refusals are not here: they are answers, and next states (R143). -/
inductive Refusal where
  /-- Raised by `exec` alone, for a command without a meaning yet (there is none). Safe: the run stops. -/
  | notModelled (mnemonic : String)
  deriving DecidableEq, Repr

/-- The reset content of a wiring entry: code 31, `UNLOADED` (R25, R32). -/
def unloadedTable : Table := Vector.replicate 26 31#5

/-- The identity map: entry `p` is `p` (R20, R25). -/
def identityTable : Table := Vector.ofFn fun p => BitVec.ofNat 5 p.val

/-- The block after reset: every value is R25's. -/
def Block.reset : Block where
  k := ⟨0, 0, 0⟩
  w1 := unloadedTable
  w2 := unloadedTable
  w3 := unloadedTable
  u := unloadedTable
  pm := identityTable
  used := 0
  pconf := false
  mode := .config
  err := 0

/-- The machine right after reset: the block of R25, nothing presented, nothing answered (log 1, log 9). -/
def State.reset : State where
  toBlock := Block.reset
  pending := []
  responses := []

end Sys2Proof.Machine
end

