-- ==== Sys2Proof/Machine/Ops.lean ====
section
/-! DEFINITION. The operations that the meanings share: reading and writing tables, registers and flags; the three outcomes of a
command, raising an error and leaving the fault (R146, R147); admission by mode (R109) and the execution of one command (R108). -/

namespace Sys2Proof.Machine

/-- The 26 letters in alphabet order (R31). -/
def letters : List Letter := List.finRange 26

/-- The 5-bit code of a letter (R32). -/
def codeOf (x : Letter) : Code := BitVec.ofNat 5 x.val

/-- The letter of a code; none for the codes 26..31, which are not letters (R32). -/
def letterOf? (c : Code) : Option Letter := if h : c.toNat < 26 then some ⟨c.toNat, h⟩ else none

/-- The letter a cipher function goes on with: the code's own, or a free value for a code that is no letter (U4, U5, U6; log 5). -/
def letterOf (c : Code) : Letter :=
  match letterOf? c with
  | some x => x
  | none => Config.freeLetter c

/-- `MemRead(t, p)`: one whole entry (00_scope.md §4.2, R38). -/
def memRead (t : Table) (p : Letter) : Code := t.get p

/-- `MemWrite(t, p, v)`: one whole entry (00_scope.md §4.2, R38). -/
def memWrite (t : Table) (p : Letter) (v : Code) : Table := t.set p.val v

/-- `K[i]` (00_scope.md §4.2, R11). -/
def Offsets.read (k : Offsets) (i : Slot) : Code :=
  match i with
  | .one => k.k1
  | .two => k.k2
  | .three => k.k3

/-- `K[i] <- v` (00_scope.md §4.2, R11). -/
def Offsets.write (k : Offsets) (i : Slot) (v : Code) : Offsets :=
  match i with
  | .one => { k with k1 := v }
  | .two => { k with k2 := v }
  | .three => { k with k3 := v }

/-- The wiring table that `tbl` names (R39, R111). -/
def Block.wiring (b : Block) (tbl : WiringTable) : Table :=
  match tbl with
  | .u => b.u
  | .w1 => b.w1
  | .w2 => b.w2
  | .w3 => b.w3

/-- Put a wiring table in its place (R30: the four spaces are disjoint). -/
def Block.setWiring (b : Block) (tbl : WiringTable) (t : Table) : Block :=
  match tbl with
  | .u => { b with u := t }
  | .w1 => { b with w1 := t }
  | .w2 => { b with w2 := t }
  | .w3 => { b with w3 := t }

/-- `USED[p]` (R19). -/
def usedAt (used : BitVec 26) (p : Letter) : Bool := used.getLsbD p.val

/-- `USED[p] <- 1` (R19, R91). -/
def markUsed (used : BitVec 26) (p : Letter) : BitVec 26 := used ||| BitVec.twoPow 26 p.val

/-- The code of `MODE` (R16). -/
def Mode.code : Mode → BitVec 2
  | .config => 0
  | .run => 1
  | .fault => 2

/-- The level output `mode_o[1:0]` (R28). -/
def Block.modeOut (b : Block) : BitVec 2 := b.mode.code

/-- The level output `fault_o` (R28). -/
def Block.faultOut (b : Block) : Bool := b.mode == .fault

/-- The reason code of a refusal: `rsp[1:0]` (R55, R144). -/
def Reason.code : Reason → BitVec 22
  | .illegal => 1
  | .wrongMode => 2

/-- The response word: `rsp[23:22]` is the code, `rsp[21:0]` the data (R54, R55). -/
def Response.word : Response → Word
  | .ok data => 0#2 ++ data
  | .refused why => 1#2 ++ why.code
  | .error e => 2#2 ++ e.setWidth 22

/-- `respond OK(data)` with the state `b` that the command leaves (00_scope.md §4.3). -/
def respondOk (data : BitVec 22) (b : Block) : Block × Response := (b, .ok data)

/-- `refuse <Reason>`: the command changes no state at all (00_scope.md §4.3, R143). -/
def refuse (why : Reason) (b : Block) : Block × Response := (b, .refused why)

/-- `raise <ErrorKind>(e)`, fault entry: `ERR <- e; MODE <- FAULT; respond ERROR(e)`; nothing else changes and nothing is saved
(00_scope.md §4.3, R146). -/
def raise (e : BitVec 7) (b : Block) : Block × Response := ({ b with err := e, mode := .fault }, .error e)

/-- Fault return, which is also the end of a session: back to `CONFIG`, `ERR` and the plugboard cleared, the offsets and the wiring
tables kept (R117, R147). -/
def closeSession (b : Block) : Block :=
  { b with mode := .config, err := 0, pconf := false, pm := identityTable, used := 0 }

/-- The block with its tables given as launch state (R6, W5): a block out of reset whose four tables hold any contents. -/
def Block.launch (w1 w2 w3 u : Table) : Block := { Block.reset with w1 := w1, w2 := w2, w3 := w3, u := u }

/-- Admission by mode: R109's table, row by row. -/
def admits (c : Mnemonic) (m : Mode) : Bool :=
  match c, m with
  | .nop, _ => true
  | .wrw, .config => true
  | .wrw, _ => false
  | .setk, .config => true
  | .setk, _ => false
  | .pair, .config => true
  | .pair, _ => false
  | .start, .config => true
  | .start, _ => false
  | .char, .run => true
  | .char, _ => false
  | .stop, _ => true
  | .rdk, _ => true
  | .rdst, _ => true

/-- The block goes to its next state and its response is presented on the port, after the earlier ones (R40, R45). -/
def State.answer (s : State) (r : Block × Response) : State where
  toBlock := r.1
  pending := s.pending
  responses := s.responses ++ [r.2.word]

/-- The order of the tests: a command whose fields address nothing is `ILLEGAL` in every mode (the decoder gives none, log 7), one
not admitted in the present mode is `WRONG_MODE`, any other has its effect (R108, R144). -/
def arbitrate (i : Instr) (effect : Block → Block × Response) (b : Block) : Block × Response :=
  if i.wellFormed then
    if admits i.mnemonic b.mode then effect b else refuse .wrongMode b
  else refuse .illegal b

/-- The execution of one command: a total function from the state to the next state and the response (R108). -/
def runCommand (i : Instr) (effect : Block → Block × Response) (s : State) : Host.Outcome State Fault Refusal :=
  .next (s.answer (arbitrate i effect s.toBlock))

/-- The answer to a word that spells no command (R49, R50, R51, R143). -/
def refuseWord (s : State) : Host.Outcome State Fault Refusal := .next (s.answer (refuse .illegal s.toBlock))

/-- Reset, asserted and released between two commands: every piece of state of the block takes its reset value and there is no
response (R156; log 3). -/
def resetBlock (s : State) : Host.Outcome State Fault Refusal := .next { s with toBlock := Block.reset }

/-- The event that stands on the command port, taken off it (R40, R45); none when the host presents nothing. -/
def takeEvent (s : State) : Option (HostEvent × State) :=
  match s.pending with
  | [] => none
  | e :: rest => some (e, { s with pending := rest })

/-- The word that the host presents for an instruction of `nbits` bits `w`, the bits above them 0 (log 10). -/
def portWord (nbits w : Nat) : Word := BitVec.ofNat 24 (w % 2 ^ nbits)

/-- The host presents an event before all it has yet to present (log 9). -/
def State.present (s : State) (e : HostEvent) : State := { s with pending := e :: s.pending }

/-- With no command presented the block is idle, with all state kept (R152; log 2). -/
def idle (s : State) : Host.Outcome State Fault Refusal := .next s

end Sys2Proof.Machine
end

