-- ==== Sys2Proof/Machine/Operands.lean ====
section
/-! DEFINITION. The operand forms (30_encoding.md R48, 20_memory.md R34, R35): how a field becomes a register, an offset or a
letter. -/

namespace Sys2Proof.Machine

/-- `sel`: 1 = `K[1]`, 2 = `K[2]`, 3 = `K[3]`; 0 addresses no register (R48, R51). -/
def slotOf? (sel : BitVec 2) : Option Slot :=
  match sel.toNat with
  | 1 => some .one
  | 2 => some .two
  | 3 => some .three
  | _ => none

/-- An integer normalised by the floor modulus, as a register value in 0..25 (00_scope.md §4.1, R104). -/
def normalise (i : Int) : Code := BitVec.ofNat 5 (i % 26).toNat

/-- `signed(imm) mod 26`, the value `SETK` writes (R48, R104). -/
def offsetOperand (imm : BitVec 8) : Code := normalise imm.toInt

/-- Alphabetic: `0x41 <= s <= 0x5A` (R34). -/
def isAlphabetic (s : Symbol) : Bool := decide (0x41 ≤ s.toNat) && decide (s.toNat ≤ 0x5A)

/-- `LetterOf(s) = s - 0x41` for an alphabetic symbol; none for a passthrough symbol (R34, R35). -/
def letterOfSymbol? (s : Symbol) : Option Letter :=
  if h : 0x41 ≤ s.toNat ∧ s.toNat ≤ 0x5A then some ⟨s.toNat - 0x41, by omega⟩ else none

/-- `SymbolOf(x) = 0x41 + x` (R35). -/
def symbolOf (x : Letter) : Symbol := BitVec.ofNat 8 (0x41 + x.val)

/-- A symbol as response data: `rsp[7:0]` (R55). -/
def symbolData (s : Symbol) : BitVec 22 := s.setWidth 22

/-- The offset triple as response data: `rsp[14:10] = K[1]`, `rsp[9:5] = K[2]`, `rsp[4:0] = K[3]` (R55, R105). -/
def offsetsData (k : Offsets) : BitVec 22 := 0#7 ++ k.k1 ++ k.k2 ++ k.k3

/-- The status as response data: `rsp[9:8] = MODE`, `rsp[7] = PCONF`, `rsp[6:0] = ERR` (R55, R118). -/
def statusData (b : Block) : BitVec 22 := 0#12 ++ b.mode.code ++ BitVec.ofBool b.pconf ++ b.err

end Sys2Proof.Machine
end

