-- ==== Sys2Proof/Machine/Flags.lean ====
section
/-! DEFINITION. The flags: the validations of `START` that make the bits of `ERR` (R75, R82, R113, R17), and the error kinds that
the bits stand for (R138). -/

namespace Sys2Proof.Machine

/-- `ValidRotor(t)`: every entry is a letter code, and every letter is in exactly one entry (R75). -/
def validRotor (t : Table) : Bool :=
  (letters.all fun p => decide ((memRead t p).toNat ≤ 25)) &&
  letters.all fun c => (letters.filter fun p => memRead t p == codeOf c).length == 1

/-- `PermU`: every entry is a letter code, and no two entries are equal (R82). -/
def permU (t : Table) : Bool :=
  (letters.all fun p => decide ((memRead t p).toNat ≤ 25)) &&
  letters.all fun p => letters.all fun q => p == q || memRead t p != memRead t q

/-- `InvolU`: `U[U[p]] = p` and `U[p] != p` for every `p`; used only where `PermU` holds (R82). -/
def involU (t : Table) : Bool :=
  letters.all fun p =>
    match letterOf? (memRead t p) with
    | some q => memRead t q == codeOf p && q != p
    | none => false

/-- `ValidReflector = PermU and InvolU` (R82). -/
def validReflector (t : Table) : Bool := permU t && involU t

/-- `Checks()`: one bit for each validation, `e[6]` down to `e[0]` (R113, R17). -/
def checks (b : Block) : BitVec 7 :=
  0#1 ++ BitVec.ofBool b.pconf ++ BitVec.ofBool (permU b.u && !involU b.u) ++ BitVec.ofBool (!permU b.u) ++
    BitVec.ofBool (!validRotor b.w3) ++ BitVec.ofBool (!validRotor b.w2) ++ BitVec.ofBool (!validRotor b.w1)

/-- The kind InvalidWiring: `ERR & 0x1F != 0` (R138). -/
def isInvalidWiring (e : BitVec 7) : Bool := e &&& 0x1F#7 != 0

/-- The kind PlugboardConflict: `ERR & 0x20 != 0` (R138). -/
def isPlugboardConflict (e : BitVec 7) : Bool := e &&& 0x20#7 != 0

/-- The kind InvalidOffset: `ERR[6]`, which is never set (R138, R140). -/
def isInvalidOffset (e : BitVec 7) : Bool := e &&& 0x40#7 != 0

end Sys2Proof.Machine
end

