-- ==== Sys2Proof/Machine/RotorStack.lean ====
section
/-! DEFINITION. The rotation primitive and the rotor stack (40_rotor_stack.md), and the reflector between its two passes
(41_reflector.md). -/

namespace Sys2Proof.Machine

/-- `Rotate(o, x) = (x + o) mod 26` for every integer `o`, with the floor modulus (R65). -/
def rotate (o : Int) (x : Letter) : Letter := ⟨(((x.val : Int) + o) % 26).toNat, by omega⟩

/-- `InvLookup(t, c)`: the unique `p` with `MemRead(t, p) = c`; a free value where it is not unique (R68, U2; log 4). -/
def invLookup (t : Table) (c : Letter) : Letter :=
  match letters.filter fun p => memRead t p == codeOf c with
  | [p] => p
  | _ => Config.freeInverse t c

/-- `RotorFwd(t, k, x)`: shift by `+k`, look up, shift by `-k` (R70). -/
def rotorFwd (t : Table) (k : Code) (x : Letter) : Letter :=
  rotate (-(k.toNat : Int)) (letterOf (memRead t (rotate k.toNat x)))

/-- `RotorBwd(t, k, y)`: shift by `+k`, inverse lookup, shift by `-k` (R71). -/
def rotorBwd (t : Table) (k : Code) (y : Letter) : Letter :=
  rotate (-(k.toNat : Int)) (invLookup t (rotate k.toNat y))

/-- `StackFwd(k, x)`: rotor 3, then 2, then 1 (R73). -/
def stackFwd (b : Block) (k : Offsets) (x : Letter) : Letter :=
  rotorFwd b.w1 k.k1 (rotorFwd b.w2 k.k2 (rotorFwd b.w3 k.k3 x))

/-- `StackBwd(k, y)`: rotor 1, then 2, then 3 (R74). -/
def stackBwd (b : Block) (k : Offsets) (y : Letter) : Letter :=
  rotorBwd b.w3 k.k3 (rotorBwd b.w2 k.k2 (rotorBwd b.w1 k.k1 y))

/-- `Reflect(x) = MemRead(U, x)` (R80). -/
def reflect (b : Block) (x : Letter) : Letter := letterOf (memRead b.u x)

/-- `RotorCore(k, x) = StackBwd(k, Reflect(StackFwd(k, x)))` (R77). -/
def rotorCore (b : Block) (k : Offsets) (x : Letter) : Letter := stackBwd b k (reflect b (stackFwd b k x))

end Sys2Proof.Machine
end

