-- ==== Sys2Proof/Machine/Plugboard.lean ====
section
/-! DEFINITION. The plugboard (42_plugboard.md): `Parse` and `Validate` on the host's side, the command `PAIR`, and `PlugApply`. -/

namespace Sys2Proof.Machine

/-- The separators of `Parse`: space, tab, line feed, carriage return (R88, D10). -/
def isBlank (c : Char) : Bool := c == ' ' || c == '\t' || c == '\n' || c == '\r'

/-- The maximal runs of non-blank characters, left to right; `cur` is the run in progress, last character first (R88). -/
def tokensFrom (cur : List Char) : List Char → List (List Char)
  | [] => if cur.isEmpty then [] else [cur.reverse]
  | c :: rest =>
    if isBlank c then
      if cur.isEmpty then tokensFrom [] rest else cur.reverse :: tokensFrom [] rest
    else tokensFrom (c :: cur) rest

/-- The tokens of a plugboard specification (R88). -/
def tokens (spec : List Char) : List (List Char) := tokensFrom [] spec

/-- `a`..`z` become `A`..`Z`; every other character stays (R88, D10). -/
def upcase (c : Char) : Char := if 0x61 ≤ c.toNat ∧ c.toNat ≤ 0x7A then Char.ofNat (c.toNat - 0x20) else c

/-- The letter of a character `A`..`Z`; none for any other (R34, R58, R88). -/
def letterOfChar? (c : Char) : Option Letter :=
  if h : 0x41 ≤ c.toNat ∧ c.toNat ≤ 0x5A then some ⟨c.toNat - 0x41, by omega⟩ else none

/-- The pair of one token: none when its length is not two, its two characters are identical, or one is no letter; the upper-casing
comes first (R88, D9). -/
def pairOfToken (t : List Char) : Option (Letter × Letter) :=
  match t.map upcase with
  | [c, d] =>
    if c = d then none
    else
      match letterOfChar? c, letterOfChar? d with
      | some a, some b => some (a, b)
      | _, _ => none
  | _ => none

/-- `Parse(spec)`: the pairs of the tokens that are pairs, in token order (R88). -/
def parse (spec : List Char) : List (Letter × Letter) := (tokens spec).filterMap pairOfToken

/-- `(a, b)` and `(b, a)` are the same pair (R89). -/
def samePair (p q : Letter × Letter) : Bool := p == q || p == (q.2, q.1)

/-- Two pairs have a letter in common (R89). -/
def shareLetter (p q : Letter × Letter) : Bool := p.1 == q.1 || p.1 == q.2 || p.2 == q.1 || p.2 == q.2

/-- `Validate(pairs)`: invalid when two different pairs have a letter in common; a pair listed twice counts once (R89, D8). -/
def validate (pairs : List (Letter × Letter)) : Bool :=
  pairs.all fun p => pairs.all fun q => samePair p q || !shareLetter p q

/-- The partner of a letter under a list of pairs: the other letter of the pair it is in, itself when it is in none (R93, R22). -/
def partnerIn (pairs : List (Letter × Letter)) (x : Letter) : Letter :=
  match pairs.find? fun p => p.1 == x || p.2 == x with
  | some p => if p.1 == x then p.2 else p.1
  | none => x

/-- "The partner map of the set of pairs" (R119, R22). -/
def partnerMap (pairs : List (Letter × Letter)) : Table := Vector.ofFn fun p => codeOf (partnerIn pairs p)

/-- `Pairs(PM)` holds the unordered pair of `p` and `q` (R22). -/
def pairedIn (pm : Table) (p q : Letter) : Bool := memRead pm p == codeOf q && p != q

/-- `PlugApply(x) = MemRead(PM, x)` (R93). -/
def plugApply (b : Block) (x : Letter) : Letter := letterOf (memRead b.pm x)

/-- What `PAIR a, b` does to the block: discard, a new pair, the same pair again, or a conflict (R91). -/
def plugPair (a b : Code) (s : Block) : Block :=
  match letterOf? a, letterOf? b with
  | some p, some q =>
    if p = q then s
    else if !usedAt s.used p && !usedAt s.used q then
      { s with pm := memWrite (memWrite s.pm p b) q a, used := markUsed (markUsed s.used p) q }
    else if usedAt s.used p && memRead s.pm p == b then s
    else { s with pconf := true }
  | _, _ => s

/-- `PAIR a, b`: the response is `OK` in all four branches (R91). -/
def execPair (a b : Code) (s : State) : Host.Outcome State Fault Refusal :=
  runCommand (.pair a b) (fun blk => respondOk 0 (plugPair a b blk)) s

end Sys2Proof.Machine
end

