-- ==== Sys2Proof/Machine/Stepper.lean ====
section
/-! DEFINITION. The stepping state machine (43_stepper.md): `Step`, and the commands `SETK` and `RDK`. -/

namespace Sys2Proof.Machine

/-- One digit of the odometer: `(k + 1) mod 26` (R100). -/
def bump (k : Code) : Code := BitVec.ofNat 5 ((k.toNat + 1) % 26)

/-- `Step((k1, k2, k3))`: the base-26 odometer, rotor 3 fastest; a digit carries only in the step in which it wraps to 0 (R100). -/
def stepOffsets (k : Offsets) : Offsets :=
  let k3 := bump k.k3
  let k2 := if k3 = 0 then bump k.k2 else k.k2
  let k1 := if k3 = 0 ∧ k2 = 0 then bump k.k1 else k.k1
  ⟨k1, k2, k3⟩

/-- `Step` applied `n` times (R102, R122). -/
def stepTimes : Nat → Offsets → Offsets
  | 0, k => k
  | n + 1, k => stepTimes n (stepOffsets k)

/-- `V(k1, k2, k3) = k1*676 + k2*26 + k3` (R102). -/
def Offsets.value (k : Offsets) : Nat := k.k1.toNat * 676 + k.k2.toNat * 26 + k.k3.toNat

/-- What `SETK sel, imm` does to a block: `K[sel] <- signed(imm) mod 26` (R104). -/
def setOffset (sel : BitVec 2) (imm : BitVec 8) (b : Block) : Block × Response :=
  match slotOf? sel with
  | some i => respondOk 0 { b with k := b.k.write i (offsetOperand imm) }
  | none => refuse .illegal b

/-- `SETK sel, imm` (R104). -/
def execSetk (sel : BitVec 2) (imm : BitVec 8) (s : State) : Host.Outcome State Fault Refusal :=
  runCommand (.setk sel imm) (setOffset sel imm) s

/-- `RDK`: answers the triple, changes nothing (R105). -/
def execRdk (s : State) : Host.Outcome State Fault Refusal :=
  runCommand .rdk (fun b => respondOk (offsetsData b.k) b) s

end Sys2Proof.Machine
end

