-- ==== Sys2Proof/Machine/Commands.lean ====
section
/-! DEFINITION. The per-character pipeline and the commands that no sub-block owns (44_commands.md): `NOP`, `WRW`, `START`, `CHAR`,
`STOP`, `RDST`. -/

namespace Sys2Proof.Machine

/-- `NOP`: `respond OK(0)` (R110). -/
def execNop (s : State) : Host.Outcome State Fault Refusal := runCommand .nop (respondOk 0) s

/-- What `WRW tbl, idx, val` does to a block: one entry of one table; `val` is not checked (R111). -/
def writeWiring (tbl : WiringTable) (idx val : Code) (b : Block) : Block × Response :=
  match letterOf? idx with
  | some p => respondOk 0 (b.setWiring tbl (memWrite (b.wiring tbl) p val))
  | none => refuse .illegal b

/-- `WRW tbl, idx, val` (R111). -/
def execWrw (tbl : WiringTable) (idx val : Code) (s : State) : Host.Outcome State Fault Refusal :=
  runCommand (.wrw tbl idx val) (writeWiring tbl idx val) s

/-- What `START` does to a block: validate, then open a session or raise with every failed check (R112). -/
def openSession (b : Block) : Block × Response :=
  if checks b = 0 then respondOk 0 { b with mode := .run } else raise (checks b) b

/-- `START` (R112). -/
def execStart (s : State) : Host.Outcome State Fault Refusal := runCommand .start openSession s

/-- `Encipher(k, x)`: the nine stages in order (R115). -/
def encipher (b : Block) (k : Offsets) (x : Letter) : Letter :=
  let s1 := plugApply b x
  let s2 := rotorFwd b.w3 k.k3 s1
  let s3 := rotorFwd b.w2 k.k2 s2
  let s4 := rotorFwd b.w1 k.k1 s3
  let s5 := reflect b s4
  let s6 := rotorBwd b.w1 k.k1 s5
  let s7 := rotorBwd b.w2 k.k2 s6
  let s8 := rotorBwd b.w3 k.k3 s7
  plugApply b s8

/-- What `CHAR sym` does to a block: encipher with the offsets before stepping, then step; a symbol that is not alphabetic is
answered with itself (R114, R116). -/
def processSymbol (sym : Symbol) (b : Block) : Block × Response :=
  match letterOfSymbol? sym with
  | some x => respondOk (symbolData (symbolOf (encipher b b.k x))) { b with k := stepOffsets b.k }
  | none => respondOk (symbolData sym) b

/-- `CHAR sym` (R114). -/
def execChar (sym : Symbol) (s : State) : Host.Outcome State Fault Refusal := runCommand (.char sym) (processSymbol sym) s

/-- `STOP`: close the session, leave `FAULT`, clear the plugboard (R117). -/
def execStop (s : State) : Host.Outcome State Fault Refusal := runCommand .stop (fun b => respondOk 0 (closeSession b)) s

/-- `RDST`: answers the status, changes nothing (R118). -/
def execRdst (s : State) : Host.Outcome State Fault Refusal := runCommand .rdst (fun b => respondOk (statusData b) b) s

end Sys2Proof.Machine
end

