-- ==== Sys2Proof/Machine/Dispatch.lean ====
section
/-! DEFINITION. One arm per command: each calls its own meaning. -/

namespace Sys2Proof.Machine

def exec (i : Instr) (s : State) : Host.Outcome State Fault Refusal :=
  match i with
  | .nop => Sys2Proof.Machine.execNop s
  | .wrw tbl idx val => Sys2Proof.Machine.execWrw tbl idx val s
  | .setk sel imm => Sys2Proof.Machine.execSetk sel imm s
  | .pair a b => Sys2Proof.Machine.execPair a b s
  | .start => Sys2Proof.Machine.execStart s
  | .char sym => Sys2Proof.Machine.execChar sym s
  | .stop => Sys2Proof.Machine.execStop s
  | .rdk => Sys2Proof.Machine.execRdk s
  | .rdst => Sys2Proof.Machine.execRdst s

end Sys2Proof.Machine
end

