-- ==== Sys2Proof/Machine/Step.lean ====
section
/-! DEFINITION. One step: the next event on the command port is taken and dealt with completely (R40, R108). -/

namespace Sys2Proof.Machine

/-- One step. A command word is decoded; a word that spells no command is answered `REFUSED ILLEGAL`; a command is executed, and
its own admission test comes there (R108, R144). Reset is the only other event (R157); with nothing presented the block is idle
(R152). -/
def step (s : State) : Host.Outcome State Fault Refusal :=
  match takeEvent s with
  | none => idle s
  | some (.reset, s') => resetBlock s'
  | some (.command w, s') =>
    match decode w with
    | .ok i => exec i s'
    | .error _ => refuseWord s'

/-- The host presents the word `w`, of `nbits` bits with the bits above them 0, as the very next command: it stands for the host's
side of the command port (log 9, log 10). -/
def State.withFetchWord (s : State) (nbits w : Nat) : State := s.present (.command (portWord nbits w))

end Sys2Proof.Machine
end

