-- ==== Sys2Proof/Machine/Transform.lean ====
section
/-! DEFINITION. `Transform`, the source's one logical operation, as a pure function of its arguments (R119). -/

namespace Sys2Proof.Machine

/-- The arguments of `Transform`: four tables, three integers, the pairs that `Parse` gave, the message (R119). -/
structure TransformArgs where
  w1 : Table
  w2 : Table
  w3 : Table
  u : Table
  i1 : Int
  i2 : Int
  i3 : Int
  pairs : List (Letter × Letter)
  msg : List Symbol
  deriving DecidableEq, Repr

/-- The configuration that `Transform` works on: the four tables, the partner map of the pairs, and `PCONF` when they are invalid
(R119). -/
def TransformArgs.config (a : TransformArgs) : Block :=
  { Block.launch a.w1 a.w2 a.w3 a.u with pm := partnerMap a.pairs, pconf := !validate a.pairs }

/-- `(i1 mod 26, i2 mod 26, i3 mod 26)` (R119). -/
def TransformArgs.initial (a : TransformArgs) : Offsets := ⟨normalise a.i1, normalise a.i2, normalise a.i3⟩

/-- `Run(k, msg)`: the output symbols and the final triple, one unfolding for each symbol (R119). -/
def runMessage (b : Block) (k : Offsets) : List Symbol → List Symbol × Offsets
  | [] => ([], k)
  | s :: rest =>
    match letterOfSymbol? s with
    | some x =>
      let r := runMessage b (stepOffsets k) rest
      (symbolOf (encipher b k x) :: r.1, r.2)
    | none =>
      let r := runMessage b k rest
      (s :: r.1, r.2)

/-- `Transform`: the failed checks and no output at all, or the output and the final offsets (R119). -/
def transform (a : TransformArgs) : Except (BitVec 7) (List Symbol × Offsets) :=
  if checks a.config = 0 then .ok (runMessage a.config a.initial a.msg) else .error (checks a.config)

end Sys2Proof.Machine
end

