-- ==== Sys2Proof/Machine/Adapter.lean ====
section
/-! DEFINITION. The host's side: the pseudo-instructions, expansions into commands and not commands themselves (R58 to R62), and the
open policy on offsets given as text (R140). The block sees only the expansion. -/

namespace Sys2Proof.Machine

/-- The code of a character of a wiring string: its letter, or 31 for a character outside `A`..`Z`; no case is folded (R58). -/
def wiringCode (c : Char) : Code :=
  match letterOfChar? c with
  | some x => codeOf x
  | none => 31

/-- The table a wiring string stands for; a string that has not exactly 26 characters fills the table with `UNLOADED` (R58). -/
def tableOfString (s : List Char) : Table :=
  Vector.ofFn fun p =>
    if s.length = 26 then
      match s[p.val]? with
      | some c => wiringCode c
      | none => 31
    else 31

/-- The 26 commands that write a table, in rising order of the index (R58). -/
def loadTable (tbl : WiringTable) (t : Table) : List Instr := letters.map fun p => .wrw tbl (codeOf p) (memRead t p)

/-- The wiring table of a rotor slot (R48, R58). -/
def slotTable : Slot → WiringTable
  | .one => .w1
  | .two => .w2
  | .three => .w3

/-- The `sel` code of a slot (R48). -/
def slotSel : Slot → BitVec 2
  | .one => 1
  | .two => 2
  | .three => 3

/-- `ROTOR n, "s"` (R58). -/
def rotorCommands (n : Slot) (s : List Char) : List Instr := loadTable (slotTable n) (tableOfString s)

/-- `REFLECTOR "s"` (R58). -/
def reflectorCommands (s : List Char) : List Instr := loadTable .u (tableOfString s)

/-- One `PAIR` for each pair, in token order (R59). -/
def pairCommands (pairs : List (Letter × Letter)) : List Instr := pairs.map fun p => .pair (codeOf p.1) (codeOf p.2)

/-- `PLUG "spec"` (R59). -/
def plugCommands (spec : List Char) : List Instr := pairCommands (parse spec)

/-- One command of `KEYS`: the integer itself where 8 bits hold it, its residue otherwise (R60). -/
def keyCommand (i : Slot) (k : Int) : Instr :=
  if -128 ≤ k ∧ k ≤ 127 then .setk (slotSel i) (BitVec.ofInt 8 k) else .setk (slotSel i) (BitVec.ofInt 8 (k % 26))

/-- `KEYS k1, k2, k3` (R60). -/
def keysCommands (k1 k2 k3 : Int) : List Instr := [keyCommand .one k1, keyCommand .two k2, keyCommand .three k3]

/-- The symbols of a text that reach the block: the characters whose code is at most 0xFF (R61). -/
def symbolsOfText (text : List Char) : List Symbol :=
  text.filterMap fun c => if c.toNat ≤ 0xFF then some (BitVec.ofNat 8 c.toNat) else none

/-- One `CHAR` for each symbol of a message (R61). -/
def msgCommands (msg : List Symbol) : List Instr := msg.map .char

/-- The output text: a character wider than 8 bits is copied at its position, every other one is the block's answer to it (R61). -/
def mergeOutput : List Char → List Symbol → List Char
  | [], _ => []
  | c :: rest, out =>
    if c.toNat ≤ 0xFF then
      match out with
      | [] => []
      | o :: out' => Char.ofNat o.toNat :: mergeOutput rest out'
    else c :: mergeOutput rest out

/-- The arguments of `Transform` that the strings of `TRANSFORM r1, r2, r3, u, (k1, k2, k3), spec, text` stand for (R62, R119). -/
def argsOfStrings (r1 r2 r3 u : List Char) (k1 k2 k3 : Int) (spec text : List Char) : TransformArgs where
  w1 := tableOfString r1
  w2 := tableOfString r2
  w3 := tableOfString r3
  u := tableOfString u
  i1 := k1
  i2 := k2
  i3 := k3
  pairs := parse spec
  msg := symbolsOfText text

/-- The commands of `TRANSFORM` before `START`: to `CONFIG`, tables, offsets, plugboard (R62). -/
def configureCommands (a : TransformArgs) : List Instr :=
  [.stop] ++ loadTable .w1 a.w1 ++ loadTable .w2 a.w2 ++ loadTable .w3 a.w3 ++ loadTable .u a.u ++
    keysCommands a.i1 a.i2 a.i3 ++ pairCommands a.pairs

/-- The commands of `TRANSFORM` up to and with `START` (R62). -/
def openCommands (a : TransformArgs) : List Instr := configureCommands a ++ [.start]

/-- The commands of `TRANSFORM` after `START`: the message, `RDK` and `STOP` when it answered `OK`; `STOP` and no `CHAR` when it
answered `ERROR` (R62). -/
def bodyCommands (startedOk : Bool) (msg : List Symbol) : List Instr :=
  if startedOk then msgCommands msg ++ [.rdk, .stop] else [.stop]

/-- The offsets that a text adapter goes on with; `none` is an offset text that is no integer. Permissive: it counts as 0. Strict:
InvalidOffset is reported and nothing is sent (R140, U1; log 11). -/
def offsetsOfText (policy : OffsetParsePolicy) (k1 k2 k3 : Option Int) : Option (Int × Int × Int) :=
  match policy with
  | .permissive => some (k1.getD 0, k2.getD 0, k3.getD 0)
  | .strict =>
    match k1, k2, k3 with
    | some i, some j, some l => some (i, j, l)
    | _, _, _ => none

end Sys2Proof.Machine
end

