-- ==== Sys2Proof/Machine/Assembler.lean ====
section
/-! DEFINITION. The listing syntax of the commands (R57, D34): one command a line, the mnemonic in upper case, the operands separated
by commas, `;` starts a comment. -/

namespace Sys2Proof.Machine

/-- A text without the blanks around it. -/
def trimBlanks (s : List Char) : List Char := ((s.dropWhile isBlank).reverse.dropWhile isBlank).reverse

/-- The pieces of a text between the commas. -/
def splitCommas : List Char → List (List Char)
  | [] => [[]]
  | c :: rest =>
    if c = ',' then [] :: splitCommas rest
    else
      match splitCommas rest with
      | [] => [[c]]
      | p :: ps => (c :: p) :: ps

/-- The value of a digit in a base up to 16; the letters of hexadecimal in either case (log 18). -/
def digitOf? (base : Nat) (c : Char) : Option Nat :=
  let d :=
    if '0' ≤ c ∧ c ≤ '9' then c.toNat - '0'.toNat
    else if 'A' ≤ c ∧ c ≤ 'F' then c.toNat - 'A'.toNat + 10
    else if 'a' ≤ c ∧ c ≤ 'f' then c.toNat - 'a'.toNat + 10
    else base
  if d < base then some d else none

/-- The number that the digits continue; `n` is the number of the digits before them. -/
def digitsFrom (base n : Nat) : List Char → Option Nat
  | [] => some n
  | c :: rest =>
    match digitOf? base c with
    | some d => digitsFrom base (base * n + d) rest
    | none => none

/-- One digit or more in a base. -/
def numberIn? (base : Nat) (s : List Char) : Option Nat := if s.isEmpty then none else digitsFrom base 0 s

/-- A number: decimal plain, hexadecimal after `0x`, binary after `0b` (00_scope.md §4.1). -/
def natOf? (s : List Char) : Option Nat :=
  match s with
  | '0' :: 'x' :: digits => numberIn? 16 digits
  | '0' :: 'b' :: digits => numberIn? 2 digits
  | _ => numberIn? 10 s

/-- A decimal integer, with `-` before a negative one: the only spelling of `imm` (R57). -/
def intOf? (s : List Char) : Option Int :=
  match s with
  | '-' :: digits => (numberIn? 10 digits).map fun n => -(n : Int)
  | _ => (numberIn? 10 s).map fun n => (n : Int)

/-- `tbl`: `U`, `W1`, `W2`, `W3`, or a number 0..3 (R57). -/
def tblOperand? (s : List Char) : Option WiringTable :=
  match s with
  | ['U'] => some .u
  | ['W', '1'] => some .w1
  | ['W', '2'] => some .w2
  | ['W', '3'] => some .w3
  | _ =>
    match natOf? s with
    | some n => if n ≤ 3 then some (WiringTable.ofCode (BitVec.ofNat 2 n)) else none
    | none => none

/-- `idx`, `val`, `a`, `b`: a letter name, or a number 0..31 (R57). -/
def codeOperand? (s : List Char) : Option Code :=
  match natOf? s with
  | some n => if n ≤ 31 then some (BitVec.ofNat 5 n) else none
  | none =>
    match s with
    | [c] => (letterOfChar? c).map codeOf
    | _ => none

/-- `sel`: a number 1..3 (R57). -/
def selOperand? (s : List Char) : Option (BitVec 2) :=
  match natOf? s with
  | some n => if 1 ≤ n ∧ n ≤ 3 then some (BitVec.ofNat 2 n) else none
  | none => none

/-- `imm`: a decimal integer -128..127 (R57). -/
def immOperand? (s : List Char) : Option (BitVec 8) :=
  match intOf? s with
  | some i => if -128 ≤ i ∧ i ≤ 127 then some (BitVec.ofInt 8 i) else none
  | none => none

/-- Nothing but blanks, or a comment after them. -/
def isRemark (s : List Char) : Bool :=
  match s.dropWhile isBlank with
  | [] => true
  | c :: _ => c == ';'

/-- `sym`: a character in single quotes, or a number 0..255; a comment may follow (R57). -/
def symOperand? (s : List Char) : Option Symbol :=
  match s.dropWhile isBlank with
  | '\'' :: c :: '\'' :: rest => if c.toNat ≤ 255 ∧ isRemark rest then some (BitVec.ofNat 8 c.toNat) else none
  | t =>
    match natOf? (trimBlanks (t.takeWhile fun c => c != ';')) with
    | some n => if n ≤ 255 then some (BitVec.ofNat 8 n) else none
    | none => none

/-- The operands of a line, the comment left out. -/
def operandsOf (rest : List Char) : List (List Char) :=
  match trimBlanks (rest.takeWhile fun c => c != ';') with
  | [] => []
  | t => (splitCommas t).map trimBlanks

/-- One line of a listing: the command it spells (R57). A field value that R51 refuses can be spelt (`WRW U, 26, 0`); its word is one
the block answers `ILLEGAL`. -/
def assemble (line : List Char) : Option Instr :=
  let t := line.dropWhile isBlank
  let mnemonic := t.takeWhile fun c => !isBlank c && c != ';'
  let rest := t.dropWhile fun c => !isBlank c && c != ';'
  match mnemonic, operandsOf rest with
  | ['N', 'O', 'P'], [] => some .nop
  | ['W', 'R', 'W'], [t, i, v] =>
    match tblOperand? t, codeOperand? i, codeOperand? v with
    | some tbl, some idx, some val => some (.wrw tbl idx val)
    | _, _, _ => none
  | ['S', 'E', 'T', 'K'], [r, i] =>
    match selOperand? r, immOperand? i with
    | some sel, some imm => some (.setk sel imm)
    | _, _ => none
  | ['P', 'A', 'I', 'R'], [x, y] =>
    match codeOperand? x, codeOperand? y with
    | some a, some b => some (.pair a b)
    | _, _ => none
  | ['S', 'T', 'A', 'R', 'T'], [] => some .start
  | ['C', 'H', 'A', 'R'], _ => (symOperand? rest).map .char
  | ['S', 'T', 'O', 'P'], [] => some .stop
  | ['R', 'D', 'K'], [] => some .rdk
  | ['R', 'D', 'S', 'T'], [] => some .rdst
  | _, _ => none

end Sys2Proof.Machine
end

