-- ==== Sys2Proof/Safety.lean ====
section
/-! DEFINITION. What counts as a safe state and a safe run: the invariants that the spec gives the block (R11, R21, R26, R27, R138),
and the runs in which no command is refused (R143). -/

namespace Sys2Proof.Machine

/-- Every register of the triple holds a value in 0..25 (R11). -/
abbrev Offsets.InRange (k : Offsets) : Prop := k.k1.toNat < 26 ∧ k.k2.toNat < 26 ∧ k.k3.toNat < 26

/-- The plugboard invariant (R21): (a) every entry is a letter, (b) `PM[PM[p]] = p`, (c) `USED[p]` says whether `PM[p] != p`. Part
(d) follows from the three. -/
abbrev Block.PlugboardOk (b : Block) : Prop :=
  (∀ p : Letter, (memRead b.pm p).toNat ≤ 25) ∧
  (∀ p q : Letter, memRead b.pm p = codeOf q → memRead b.pm q = codeOf p) ∧
  (∀ p : Letter, usedAt b.used p = decide (memRead b.pm p ≠ codeOf p))

/-- All four tables are valid (R75, R82). -/
abbrev Block.TablesValid (b : Block) : Prop :=
  validRotor b.w1 = true ∧ validRotor b.w2 = true ∧ validRotor b.w3 = true ∧ validReflector b.u = true

/-- In mode `RUN` the configuration is valid and `ERR` is 0 (R26). -/
abbrev Block.RunOk (b : Block) : Prop := b.mode = .run → b.TablesValid ∧ b.pconf = false ∧ b.err = 0

/-- `ERR != 0` exactly when `MODE = FAULT`; `ERR[6] = 0` always (R27); bits 3 and 4 are never both 1 (R138). -/
abbrev Block.ErrOk (b : Block) : Prop :=
  (b.err ≠ 0 ↔ b.mode = .fault) ∧ b.err.getLsbD 6 = false ∧ ¬(b.err.getLsbD 3 = true ∧ b.err.getLsbD 4 = true)

/-- In mode `FAULT`, `ERR` is still the set of the checks that the configuration fails: nothing it depends on can be written there
(R109, R146). -/
abbrev Block.FaultOk (b : Block) : Prop := b.mode = .fault → b.err = checks b

/-- The invariant of the block. -/
structure Block.Inv (b : Block) : Prop where
  offsets : b.k.InRange
  plugboard : b.PlugboardOk
  run : b.RunOk
  err : b.ErrOk
  fault : b.FaultOk

/-- The plugboard is empty: the state after reset and after every `STOP` (R87). -/
abbrev Block.PlugboardEmpty (b : Block) : Prop := b.pm = identityTable ∧ b.used = 0 ∧ b.pconf = false

/-- Of a word with the opcode `op`: does it spell no command, in the words of R49, R50 and R51? A 1 in a zero field of the format (the
fields of R46), `WRW` with `idx` above 25, `SETK` with `sel` = 0, a reserved opcode. -/
def malformedAt (op : Nat) (w : Word) : Bool :=
  match op with
  | 0 => w.extractLsb' 0 20 != 0
  | 1 => w.extractLsb' 0 8 != 0 || decide (26 ≤ (w.extractLsb' 13 5).toNat)
  | 2 => w.extractLsb' 8 10 != 0 || w.extractLsb' 18 2 == 0
  | 3 => w.extractLsb' 0 10 != 0
  | 4 => w.extractLsb' 0 20 != 0
  | 5 => w.extractLsb' 8 12 != 0
  | 6 => w.extractLsb' 0 20 != 0
  | 7 => w.extractLsb' 0 20 != 0
  | 8 => w.extractLsb' 0 20 != 0
  | _ => true

/-- A word that spells no command (R49, R50, R51); the opcode is `cmd[23:20]` (R46). -/
def malformed (w : Word) : Bool := malformedAt (w.extractLsb' 20 4).toNat w

/-- The code of a response word: `rsp[23:22]` (R54). -/
def responseCode (r : Word) : BitVec 2 := r.extractLsb' 22 2

/-- No response among these is a refusal: the runs that claims about a session are made for (R143). -/
def noneRefused (rs : List Word) : Bool := rs.all fun r => responseCode r != 1

/-- The host presents these commands, the first one next, before all it has yet to present. -/
def State.presentAll (s : State) (cmds : List Instr) : State :=
  { s with pending := cmds.map (fun i => HostEvent.command (encode i)) ++ s.pending }

end Sys2Proof.Machine
end

