-- ==== Sys2Proof/Certificates/Slice0/Obligations.lean ====
section
/-! DEFINITION. The statements for the provers, each about a rule of the spec. -/

open Sys2Proof Sys2Proof.Machine

/-! ## Encoding and decoding (30_encoding.md) -/

/-- R46 to R48, R53: decoding the word of a well-formed command gives the command back, every operand at every value. -/
def Obligations.DecodeOfEncodeIsIdentity : Prop :=
  ∀ i : Instr, i.wellFormed = true → decode (encode i) = .ok i

/-- R46, R47: a word that decodes is the word of its command: no two words spell one command, and no bit is ignored. -/
def Obligations.EncodeOfDecodeIsIdentity : Prop :=
  ∀ (w : Word) (i : Instr), decode w = .ok i → encode i = w ∧ i.wellFormed = true

/-- R47: the decoder follows the opcode map's rows and further conditions, and the rows exclude one another. -/
def Obligations.DecodeFollowsOpcodeMap : Prop :=
  (∀ (w : Word) (i : Instr), decode w = .ok i → ∃ r ∈ opcodeMap, r.selects w = true ∧ r.mnemonic = i.mnemonic) ∧
  (∀ (w : Word), ∀ r ∈ opcodeMap, r.selects w = true →
    (r.mnemonic = .wrw → (w.extractLsb' 13 5).toNat ≤ 25) → (r.mnemonic = .setk → w.extractLsb' 18 2 ≠ 0) →
    ∃ i, decode w = .ok i ∧ i.mnemonic = r.mnemonic) ∧
  (∀ (w : Word), ∀ r ∈ opcodeMap, ∀ r' ∈ opcodeMap, r.selects w = true → r'.selects w = true → r = r')

/-- R49, R50, R51: a word with a 1 in a zero field, a reserved opcode, `WRW` with an index above 25 and `SETK` with selector 0 are
answered `REFUSED ILLEGAL` in every mode and change no state; no other word is illegal. -/
def Obligations.IllegalWordsAreRefusedUnchanged : Prop :=
  (∀ (s : State) (w : Word) (rest : List HostEvent), s.pending = .command w :: rest → malformed w = true →
    step s = .next { s with pending := rest, responses := s.responses ++ [0x400001] }) ∧
  (∀ w : Word, malformed w = false → ∃ i, decode w = .ok i)

/-- Words that the spec prints (R57, and 95_test_vectors.md §3.7), written out, with the commands they stand for. -/
def Obligations.SpecWordsDecode : Prop :=
  decode 0x000000 = .ok .nop ∧ decode 0x140400 = .ok (.wrw .w1 0 4) ∧ decode 0x132C00 = .ok (.wrw .u 25 12) ∧
  decode 0x1C3F00 = .ok (.wrw .w3 1 31) ∧ decode 0x2C00FF = .ok (.setk 3 0xFF) ∧ decode 0x24001A = .ok (.setk 1 26) ∧
  decode 0x300400 = .ok (.pair 0 1) ∧ decode 0x310C00 = .ok (.pair 2 3) ∧ decode 0x3FFC00 = .ok (.pair 31 31) ∧
  decode 0x400000 = .ok .start ∧ decode 0x500041 = .ok (.char 0x41) ∧ decode 0x600000 = .ok .stop ∧
  decode 0x700000 = .ok .rdk ∧ decode 0x800000 = .ok .rdst ∧
  decode 0x000001 = .error .zeroField ∧ decode 0x1B4000 = .error .indexOutOfRange ∧
  decode 0x200000 = .error .selectorZero ∧ decode 0x500141 = .error .zeroField ∧ decode 0x900000 = .error .reservedOpcode

/-- R57: the assembler spells the commands of the spec's examples, with numbers in the notations of 00_scope.md §4.1: decimal plain,
hexadecimal after `0x` (the `CHAR 0xFF` of 95_test_vectors.md §3.7), binary after `0b`. -/
def Obligations.AssemblerSpellsTheExamples : Prop :=
  (assemble "WRW W1, A, E".toList).map encode = some 0x140400 ∧ (assemble "SETK 3, -1".toList).map encode = some 0x2C00FF ∧
  (assemble "PAIR A, B".toList).map encode = some 0x300400 ∧ (assemble "START".toList).map encode = some 0x400000 ∧
  (assemble "CHAR 'A' ; a letter".toList).map encode = some 0x500041 ∧ (assemble "STOP".toList).map encode = some 0x600000 ∧
  (assemble "RDK".toList).map encode = some 0x700000 ∧ (assemble "RDST".toList).map encode = some 0x800000 ∧
  (assemble "NOP".toList).map encode = some 0x000000 ∧
  (assemble "CHAR 0xFF".toList).map encode = some 0x5000FF ∧ (assemble "PAIR 31, 0b11111".toList).map encode = some 0x3FFC00 ∧
  (assemble "WRW 3, 0x1, 31".toList).map encode = some 0x1C3F00 ∧ (assemble "CHAR 32".toList).map encode = some 0x500020

/-! ## The step (R40, R108) and reset (R25, R156) -/

/-- R108: when the word on the command port decodes to a command, the step is `exec` of that command, with the word taken off the
port. -/
def Obligations.StepRunsTheDecodedCommand : Prop :=
  ∀ (s : State) (w : Word) (rest : List HostEvent) (i : Instr), s.pending = .command w :: rest → decode w = .ok i →
    step s = exec i { s with pending := rest }

/-- R157, with the model's own events of the port (log 1, log 3): reset brings the block to its reset state and answers nothing; with
nothing presented the block is idle and keeps all its state (R152, log 2). -/
def Obligations.StepOnResetAndIdle : Prop :=
  (∀ (s : State) (rest : List HostEvent), s.pending = .reset :: rest →
    step s = .next { toBlock := Block.reset, pending := rest, responses := s.responses }) ∧
  (∀ s : State, s.pending = [] → step s = .next s)

/-- R25: the value of every piece of state after reset. -/
def Obligations.ResetLeavesTheListedValues : Prop :=
  State.reset.mode = .config ∧ State.reset.err = 0 ∧ State.reset.pconf = false ∧ State.reset.used = 0 ∧
  (∀ p : Letter, memRead State.reset.pm p = codeOf p) ∧
  State.reset.k = ⟨0, 0, 0⟩ ∧
  (∀ p : Letter, memRead State.reset.w1 p = 31 ∧ memRead State.reset.w2 p = 31 ∧ memRead State.reset.w3 p = 31 ∧
    memRead State.reset.u p = 31)

/-- R4: the response and the next state of the block depend on the command word and the block's state alone, not on what was answered
before or what the host will present. -/
def Obligations.ResponseDependsOnBlockAndWordAlone : Prop :=
  ∀ (s s' : State) (w : Word) (rest rest' : List HostEvent), s.toBlock = s'.toBlock →
    s.pending = .command w :: rest → s'.pending = .command w :: rest' →
    ∃ (b : Block) (r : Word), step s = .next { toBlock := b, pending := rest, responses := s.responses ++ [r] } ∧
      step s' = .next { toBlock := b, pending := rest', responses := s'.responses ++ [r] }

/-- R40: the commands are taken in the order presented, each gets exactly one response, in order, and the machine never stops. -/
def Obligations.OneResponsePerCommandInOrder : Prop :=
  ∀ (ws : List Word) (s : State) (rest : List HostEvent), s.pending = ws.map HostEvent.command ++ rest →
    ∃ (t : State) (rs : List Word), Host.Core.run Sys2Proof.core ws.length s = .next t ∧
      t.responses = s.responses ++ rs ∧ rs.length = ws.length ∧ t.pending = rest

/-- R136: each command has one of three outcomes, told apart by the response code; a refused one changes no state, an error is
`START`'s and changes `ERR` and `MODE` only. -/
def Obligations.ThreeOutcomesOfACommand : Prop :=
  ∀ (s : State) (w : Word) (rest : List HostEvent), s.pending = .command w :: rest →
    ∃ (t : State) (r : Word), step s = .next t ∧ t.responses = s.responses ++ [r] ∧ t.pending = rest ∧
      (responseCode r = 0 ∨ responseCode r = 1 ∧ t.toBlock = s.toBlock ∨
        responseCode r = 2 ∧ decode w = .ok .start ∧ t.toBlock = { s.toBlock with err := t.err, mode := t.mode })

/-- R55: the response words, field by field. -/
def Obligations.ResponseWordLayout : Prop :=
  (∀ d : BitVec 22, (Response.ok d).word = 0#2 ++ d) ∧
  (Response.refused .illegal).word = 0x400001 ∧ (Response.refused .wrongMode).word = 0x400002 ∧
  (∀ e : BitVec 7, (Response.error e).word = 2#2 ++ 0#15 ++ e) ∧
  (Response.ok (offsetsData ⟨4, 0, 1⟩)).word = 0x001001 ∧ (Response.error 0x20).word = 0x800020

/-! ## Admission and the modes (R109, R151) -/

/-- R109: the table of admission: what each command is answered where it is not admitted, and that it is executed where it is. -/
def Obligations.AdmissionByMode : Prop :=
  (∀ (s : State) (i : Instr), i.wellFormed = true →
    ((i.mnemonic = .wrw ∨ i.mnemonic = .setk ∨ i.mnemonic = .pair ∨ i.mnemonic = .start) ∧ s.mode ≠ .config ∨
      i.mnemonic = .char ∧ s.mode ≠ .run) →
    exec i s = .next { s with responses := s.responses ++ [0x400002] }) ∧
  (∀ (s : State) (i : Instr), i.wellFormed = true →
    ((i.mnemonic = .wrw ∨ i.mnemonic = .setk ∨ i.mnemonic = .pair ∨ i.mnemonic = .start) ∧ s.mode = .config ∨
      i.mnemonic = .char ∧ s.mode = .run ∨
      i.mnemonic = .nop ∨ i.mnemonic = .stop ∨ i.mnemonic = .rdk ∨ i.mnemonic = .rdst) →
    ∃ (t : State) (r : Word), exec i s = .next t ∧ t.responses = s.responses ++ [r] ∧ responseCode r ≠ 1)

/-- R151: the mode after a step, for every event, word and mode. -/
def Obligations.ModeTransitions : Prop :=
  ∀ s t : State, step s = .next t →
    (∀ rest, s.pending = .reset :: rest → t.mode = .config) ∧
    (∀ w rest, s.pending = .command w :: rest →
      (decode w = .ok .stop → t.mode = .config) ∧
      (decode w = .ok .start → s.mode = .config → checks s.toBlock = 0 → t.mode = .run) ∧
      (decode w = .ok .start → s.mode = .config → checks s.toBlock ≠ 0 → t.mode = .fault) ∧
      (decode w = .ok .start → s.mode ≠ .config → t.mode = s.mode) ∧
      (decode w ≠ .ok .stop → decode w ≠ .ok .start → t.mode = s.mode))

/-- R142: only `START` answers `ERROR`, and nothing does in mode `RUN`. -/
def Obligations.OnlyStartRaises : Prop :=
  ∀ (s t : State) (w : Word) (rest : List HostEvent) (r : Word), s.pending = .command w :: rest → step s = .next t →
    t.responses = s.responses ++ [r] → responseCode r = 2 → decode w = .ok .start ∧ s.mode = .config

/-- R147: the only way out of `FAULT` is `STOP`, or reset; `STOP` clears `ERR` and the plugboard and keeps the offsets and the wiring
tables. -/
def Obligations.FaultIsLeftOnlyByStopOrReset : Prop :=
  ∀ s t : State, s.mode = .fault → step s = .next t → t.mode ≠ .fault →
    (∃ rest, s.pending = .reset :: rest) ∨
    (∃ w rest, s.pending = .command w :: rest ∧ decode w = .ok .stop ∧ t.mode = .config ∧ t.err = 0 ∧
      t.PlugboardEmpty ∧ t.k = s.k ∧ t.w1 = s.w1 ∧ t.w2 = s.w2 ∧ t.w3 = s.w3 ∧ t.u = s.u)

/-- R28: the level outputs are functions of `MODE`. -/
def Obligations.StatusOutputsFollowMode : Prop :=
  ∀ b : Block, (b.modeOut = 0 ↔ b.mode = .config) ∧ (b.modeOut = 1 ↔ b.mode = .run) ∧ (b.modeOut = 2 ↔ b.mode = .fault) ∧
    (b.faultOut = true ↔ b.mode = .fault)

/-! ## The commands, one by one: where each completes, its result and its frame -/

/-- R110: `NOP` answers `OK`(0) in every mode and writes nothing. -/
def Obligations.NopWritesNothing : Prop :=
  decode 0x000000 = .ok .nop ∧ encode .nop = 0x000000 ∧
  ∀ s : State, exec .nop s = .next { s with responses := s.responses ++ [0x000000] }

/-- R111: `WRW` writes the addressed entry of the addressed table and nothing else; `val` is not checked; an index above 25 is refused
`ILLEGAL`, another mode than `CONFIG` is refused `WRONG_MODE`. The last clause, that `exec` itself answers `ILLEGAL` for such an index,
is the model's choice (log 7): the decoder refuses the word, so it never reaches execution. -/
def Obligations.WrwWritesOneEntry : Prop :=
  (∀ w : Word, w &&& 0xF000FF = 0x100000 → (w.extractLsb' 13 5).toNat ≤ 25 →
    ∃ tbl, decode w = .ok (.wrw tbl (w.extractLsb' 13 5) (w.extractLsb' 8 5)) ∧
      (tbl = .u ↔ w.extractLsb' 18 2 = 0) ∧ (tbl = .w1 ↔ w.extractLsb' 18 2 = 1) ∧ (tbl = .w2 ↔ w.extractLsb' 18 2 = 2) ∧
      (tbl = .w3 ↔ w.extractLsb' 18 2 = 3)) ∧
  (∀ (s : State) (tbl : WiringTable) (p : Letter) (val : Code), s.mode = .config →
    ∃ t : State, exec (.wrw tbl (codeOf p) val) s = .next t ∧
      (∀ tbl' q, memRead (t.toBlock.wiring tbl') q =
        if tbl' = tbl ∧ q = p then val else memRead (s.toBlock.wiring tbl') q) ∧
      t.k = s.k ∧ t.pm = s.pm ∧ t.used = s.used ∧ t.pconf = s.pconf ∧ t.mode = s.mode ∧ t.err = s.err ∧
      t.pending = s.pending ∧ t.responses = s.responses ++ [0x000000]) ∧
  (∀ (s : State) (tbl : WiringTable) (p : Letter) (val : Code), s.mode ≠ .config →
    exec (.wrw tbl (codeOf p) val) s = .next { s with responses := s.responses ++ [0x400002] }) ∧
  (∀ (s : State) (tbl : WiringTable) (idx val : Code), 26 ≤ idx.toNat →
    exec (.wrw tbl idx val) s = .next { s with responses := s.responses ++ [0x400001] })

/-- R104: `SETK` writes the addressed offset with the operand modulo 26 and leaves the other two; selector 0 is refused `ILLEGAL`,
another mode than `CONFIG` is refused `WRONG_MODE`. The last clause, that `exec` itself answers `ILLEGAL` for selector 0, is the model's
choice (log 7): the decoder refuses the word, so it never reaches execution. -/
def Obligations.SetkNormalisesOneOffset : Prop :=
  (∀ w : Word, w &&& 0xF3FF00 = 0x200000 → w.extractLsb' 18 2 ≠ 0 →
    decode w = .ok (.setk (w.extractLsb' 18 2) (w.extractLsb' 0 8))) ∧
  (∀ (s : State) (sel : BitVec 2) (imm : BitVec 8), sel ≠ 0 → s.mode = .config →
    ∃ v : Code, (v.toNat : Int) = imm.toInt % 26 ∧
      exec (.setk sel imm) s = .next { s with
        k := ⟨if sel = 1 then v else s.k.k1, if sel = 2 then v else s.k.k2, if sel = 3 then v else s.k.k3⟩,
        responses := s.responses ++ [0x000000] }) ∧
  (∀ (s : State) (sel : BitVec 2) (imm : BitVec 8), sel ≠ 0 → s.mode ≠ .config →
    exec (.setk sel imm) s = .next { s with responses := s.responses ++ [0x400002] }) ∧
  (∀ (s : State) (imm : BitVec 8), exec (.setk 0 imm) s = .next { s with responses := s.responses ++ [0x400001] })

/-- R91: the four branches of `PAIR`: discarded, a new pair, the same pair again, a conflict. -/
def Obligations.PairTakesOneOfFourBranches : Prop :=
  (∀ w : Word, w &&& 0xF003FF = 0x300000 → decode w = .ok (.pair (w.extractLsb' 15 5) (w.extractLsb' 10 5))) ∧
  (∀ (s : State) (a b : Code), s.mode = .config → (26 ≤ a.toNat ∨ 26 ≤ b.toNat ∨ a = b) →
    exec (.pair a b) s = .next { s with responses := s.responses ++ [0x000000] }) ∧
  (∀ (s : State) (p q : Letter), s.mode = .config → p ≠ q → usedAt s.used p = false → usedAt s.used q = false →
    ∃ t : State, exec (.pair (codeOf p) (codeOf q)) s = .next t ∧
      (∀ x, memRead t.pm x = if x = p then codeOf q else if x = q then codeOf p else memRead s.pm x) ∧
      (∀ x, usedAt t.used x = (usedAt s.used x || x == p || x == q)) ∧
      t.toBlock = { s.toBlock with pm := t.pm, used := t.used } ∧
      t.pending = s.pending ∧ t.responses = s.responses ++ [0x000000]) ∧
  (∀ (s : State) (p q : Letter), s.mode = .config → p ≠ q → usedAt s.used p = true → memRead s.pm p = codeOf q →
    exec (.pair (codeOf p) (codeOf q)) s = .next { s with responses := s.responses ++ [0x000000] }) ∧
  (∀ (s : State) (p q : Letter), s.mode = .config → p ≠ q → (usedAt s.used p = true ∨ usedAt s.used q = true) →
    ¬ (usedAt s.used p = true ∧ memRead s.pm p = codeOf q) →
    exec (.pair (codeOf p) (codeOf q)) s = .next { s with pconf := true, responses := s.responses ++ [0x000000] }) ∧
  (∀ (s : State) (a b : Code), s.mode ≠ .config →
    exec (.pair a b) s = .next { s with responses := s.responses ++ [0x400002] })

/-- R112: `START` opens a session when no check fails, and otherwise raises with every failed check; it changes nothing else. -/
def Obligations.StartOpensOrRaises : Prop :=
  decode 0x400000 = .ok .start ∧
  (∀ s : State, s.mode = .config → checks s.toBlock = 0 →
    exec .start s = .next { s with mode := .run, responses := s.responses ++ [0x000000] }) ∧
  (∀ s : State, s.mode = .config → checks s.toBlock ≠ 0 →
    exec .start s = .next { s with
      err := checks s.toBlock, mode := .fault, responses := s.responses ++ [2#2 ++ 0#15 ++ checks s.toBlock] }) ∧
  (∀ s : State, s.mode ≠ .config → exec .start s = .next { s with responses := s.responses ++ [0x400002] }) ∧
  (∀ b : Block, (isInvalidWiring (checks b) = true ↔ ∃ j < 5, (checks b).getLsbD j = true) ∧
    (isPlugboardConflict (checks b) = true ↔ b.pconf = true))

/-- R113: the seven bits that `START` evaluates. -/
def Obligations.ChecksReportEveryValidation : Prop :=
  ∀ b : Block, (checks b).getLsbD 0 = !validRotor b.w1 ∧ (checks b).getLsbD 1 = !validRotor b.w2 ∧
    (checks b).getLsbD 2 = !validRotor b.w3 ∧ (checks b).getLsbD 3 = !permU b.u ∧
    (checks b).getLsbD 4 = (permU b.u && !involU b.u) ∧ (checks b).getLsbD 5 = b.pconf ∧ (checks b).getLsbD 6 = false

/-- R114, R116: `CHAR` of an alphabetic symbol answers its encipherment under the offsets before the step, and steps; any other symbol
is answered with itself and changes nothing. -/
def Obligations.CharEnciphersThenSteps : Prop :=
  (∀ w : Word, w &&& 0xFFFF00 = 0x500000 → decode w = .ok (.char (w.extractLsb' 0 8))) ∧
  (∀ (s : State) (sym : Symbol) (x : Letter), s.mode = .run → sym.toNat = 0x41 + x.val →
    exec (.char sym) s = .next { s with
      k := stepOffsets s.k,
      responses := s.responses ++ [BitVec.ofNat 24 (0x41 + (encipher s.toBlock s.k x).val)] }) ∧
  (∀ (s : State) (sym : Symbol), s.mode = .run → (sym.toNat < 0x41 ∨ 0x5A < sym.toNat) →
    exec (.char sym) s = .next { s with responses := s.responses ++ [BitVec.ofNat 24 sym.toNat] }) ∧
  (∀ (s : State) (sym : Symbol), s.mode ≠ .run →
    exec (.char sym) s = .next { s with responses := s.responses ++ [0x400002] })

/-- R117: `STOP`, in every mode, goes to `CONFIG`, clears `ERR`, `PCONF`, `USED` and the partner map, and keeps the offsets and the
wiring tables; a second `STOP` changes nothing. -/
def Obligations.StopClearsTheSession : Prop :=
  decode 0x600000 = .ok .stop ∧
  ∀ s : State, ∃ pm : Table, (∀ p, memRead pm p = codeOf p) ∧
    exec .stop s = .next { s with
      mode := .config, err := 0, pconf := false, pm := pm, used := 0, responses := s.responses ++ [0x000000] } ∧
    ∀ t u : State, exec .stop s = .next t → exec .stop t = .next u → u.toBlock = t.toBlock

/-- R105: `RDK` answers the triple in every mode and changes nothing. -/
def Obligations.RdkAnswersTheTriple : Prop :=
  decode 0x700000 = .ok .rdk ∧
  ∀ s : State, exec .rdk s = .next { s with responses := s.responses ++ [0#9 ++ s.k.k1 ++ s.k.k2 ++ s.k.k3] }

/-- R118: `RDST` answers `MODE`, `PCONF` and `ERR` in every mode and changes nothing; in a state that the invariant admits its answers
are the four listed. -/
def Obligations.RdstAnswersTheStatus : Prop :=
  decode 0x800000 = .ok .rdst ∧
  (∀ s : State, exec .rdst s = .next { s with
    responses := s.responses ++ [0#14 ++ s.mode.code ++ BitVec.ofBool s.pconf ++ s.err] }) ∧
  (∀ s : State, s.toBlock.Inv → ∃ (t : State) (r : Word), exec .rdst s = .next t ∧ t.responses = s.responses ++ [r] ∧
    (s.mode = .config ∧ s.pconf = false ∧ r = 0x000000 ∨ s.mode = .config ∧ s.pconf = true ∧ r = 0x000080 ∨
      s.mode = .run ∧ r = 0x000100 ∨
      s.mode = .fault ∧ r.toNat = 0x200 + 0x80 * s.pconf.toNat + s.err.toNat ∧ 1 ≤ s.err.toNat ∧ s.err.toNat ≤ 63))

/-- R146: fault entry writes `ERR` and `MODE` and nothing else, and `fault_o` is 1 in the fault. -/
def Obligations.FaultEntryIsPrecise : Prop :=
  ∀ s t : State, s.mode = .config → checks s.toBlock ≠ 0 → exec .start s = .next t →
    t.err = checks s.toBlock ∧ t.mode = .fault ∧ t.responses = s.responses ++ [2#2 ++ 0#15 ++ checks s.toBlock] ∧
    t.k = s.k ∧ t.w1 = s.w1 ∧ t.w2 = s.w2 ∧ t.w3 = s.w3 ∧ t.u = s.u ∧ t.pm = s.pm ∧ t.used = s.used ∧
    t.pconf = s.pconf ∧ t.toBlock.faultOut = true

/-- R38: `WRW`, `SETK`, `STOP`, `NOP`, `PAIR`, `RDK` and `RDST` are idempotent: the same command again leaves the block as it is. -/
def Obligations.RepeatedCommandsAreIdempotent : Prop :=
  ∀ (i : Instr) (s t u : State), i.mnemonic ≠ .char → i.mnemonic ≠ .start → exec i s = .next t → exec i t = .next u →
    u.toBlock = t.toBlock

/-! ## The invariants (R11, R21, R26, R27) -/

/-- The block after reset meets the invariant. -/
def Obligations.ResetMeetsTheInvariant : Prop := State.reset.toBlock.Inv

/-- Every step, from every state that meets the invariant, keeps it (R11, R21, R26, R27). -/
def Obligations.StepKeepsTheInvariant : Prop :=
  ∀ s t : State, s.toBlock.Inv → step s = .next t → t.toBlock.Inv

/-- R26: in mode `RUN` the configuration is valid, and a command that is not `STOP` changes nothing of the block but the offsets. -/
def Obligations.RunFreezesTheConfiguration : Prop :=
  ∀ s : State, s.toBlock.Inv → s.mode = .run →
    s.TablesValid ∧ s.pconf = false ∧ s.err = 0 ∧
    ∀ (t : State) (w : Word) (rest : List HostEvent), s.pending = .command w :: rest → decode w ≠ .ok .stop →
      step s = .next t → t.toBlock = { s.toBlock with k := t.k }

/-- R26, R68 (and U2, U4, U5): in mode `RUN` no lookup of the cipher meets a free value: every entry of every table is a letter, and the
inverse lookup of every letter in every rotor table finds exactly one place. -/
def Obligations.RunNeverMeetsAFreeValue : Prop :=
  ∀ b : Block, b.Inv → b.mode = .run →
    (∀ p : Letter, ∀ t ∈ [b.w1, b.w2, b.w3, b.u, b.pm], ∃ x : Letter, letterOf? (memRead t p) = some x) ∧
    (∀ c : Letter, ∀ t ∈ [b.w1, b.w2, b.w3], ∃ p : Letter, (letters.filter fun q => memRead t q == codeOf c) = [p])

/-- R21 (d): the number of letters in use is even and at most 26. -/
def Obligations.UsedLettersComeInPairs : Prop :=
  ∀ b : Block, b.PlugboardOk → Even (letters.filter (usedAt b.used)).length ∧ (letters.filter (usedAt b.used)).length ≤ 26

/-- R126: in a state that the invariant admits, an output symbol is answered only in mode `RUN` and under a configuration that passes
every check; and in mode `RUN` nothing can fail: no word is answered `ERROR` there. -/
def Obligations.NoOutputUnderAnInvalidConfiguration : Prop :=
  (∀ (s t : State) (w : Word) (rest : List HostEvent) (sym : Symbol) (r : Word), s.toBlock.Inv →
    s.pending = .command w :: rest → decode w = .ok (.char sym) → step s = .next t → t.responses = s.responses ++ [r] →
    responseCode r = 0 → s.mode = .run ∧ checks s.toBlock = 0) ∧
  (∀ (s t : State) (w : Word) (rest : List HostEvent) (r : Word), s.mode = .run → s.pending = .command w :: rest →
    step s = .next t → t.responses = s.responses ++ [r] → responseCode r ≠ 2)

/-! ## Rotation, rotors, reflector (40_rotor_stack.md, 41_reflector.md) -/

/-- R66: rotating back undoes rotating, for every integer offset and every letter. -/
def Obligations.RotationHasAnInverse : Prop := ∀ (o : Int) (x : Letter), rotate (-o) (rotate o x) = x

/-- R67: in every use inside the block the rotation is one conditional subtraction or addition. -/
def Obligations.RotationByOneConditionalCorrection : Prop :=
  ∀ (k : Code) (x : Letter), k.toNat < 26 →
    (rotate k.toNat x).val = (if x.val + k.toNat ≥ 26 then x.val + k.toNat - 26 else x.val + k.toNat) ∧
    (rotate (-(k.toNat : Int)) x).val = (if x.val < k.toNat then x.val + 26 - k.toNat else x.val - k.toNat)

/-- R75: given that every entry is a letter, "exactly one entry for each letter" is "no two entries are equal". -/
def Obligations.ValidRotorMeansPairwiseDifferent : Prop :=
  ∀ t : Table, validRotor t = true ↔
    (∀ p, (memRead t p).toNat ≤ 25) ∧ (∀ p q, p ≠ q → memRead t p ≠ memRead t q)

/-- R82: the two predicates of the reflector, and the `ERR` bits that `START` sets from them. -/
def Obligations.ReflectorValidityPredicates : Prop :=
  (∀ t : Table, permU t = true ↔ (∀ p, (memRead t p).toNat ≤ 25) ∧ (∀ p q, p ≠ q → memRead t p ≠ memRead t q)) ∧
  (∀ t : Table, permU t = true →
    (involU t = true ↔ ∀ p q, memRead t p = codeOf q → memRead t q = codeOf p ∧ memRead t p ≠ codeOf p)) ∧
  (∀ b : Block, (validReflector b.u = true ↔ permU b.u = true ∧ involU b.u = true) ∧
    (permU b.u = false → (checks b).getLsbD 3 = true ∧ (checks b).getLsbD 4 = false) ∧
    (permU b.u = true → involU b.u = false → (checks b).getLsbD 3 = false ∧ (checks b).getLsbD 4 = true) ∧
    (permU b.u = true → involU b.u = true → (checks b).getLsbD 3 = false ∧ (checks b).getLsbD 4 = false))

/-- R68: on a valid table the inverse lookup is the inverse of the read. -/
def Obligations.InverseLookupInvertsAValidTable : Prop :=
  ∀ t : Table, validRotor t = true →
    (∀ p c, memRead t p = codeOf c → invLookup t c = p) ∧ (∀ c, memRead t (invLookup t c) = codeOf c)

/-- R72: backward undoes forward and forward undoes backward, for the same offset of a valid rotor. -/
def Obligations.RotorBackwardInvertsForward : Prop :=
  ∀ (t : Table) (k : Code) (x : Letter), validRotor t = true →
    rotorBwd t k (rotorFwd t k x) = x ∧ rotorFwd t k (rotorBwd t k x) = x

/-- R76: the same of the stack of three. -/
def Obligations.StackBackwardInvertsForward : Prop :=
  ∀ (b : Block) (k : Offsets) (x : Letter),
    validRotor b.w1 = true → validRotor b.w2 = true → validRotor b.w3 = true →
    stackBwd b k (stackFwd b k x) = x ∧ stackFwd b k (stackBwd b k x) = x

/-- R77: the rotor core is an involution without fixed point. -/
def Obligations.RotorCoreIsAnInvolution : Prop :=
  ∀ (b : Block) (k : Offsets) (x : Letter), b.TablesValid →
    rotorCore b k (rotorCore b k x) = x ∧ rotorCore b k x ≠ x

/-- R83: a valid reflector is an involution without fixed point. -/
def Obligations.ReflectorIsAnInvolution : Prop :=
  ∀ (b : Block) (x : Letter), validReflector b.u = true → reflect b (reflect b x) = x ∧ reflect b x ≠ x

/-! ## The plugboard (42_plugboard.md) -/

/-- R94: the plugboard is symmetric, and an unpaired letter is its own partner. -/
def Obligations.PlugboardIsSymmetric : Prop :=
  ∀ (b : Block) (x : Letter), b.PlugboardOk →
    plugApply b (plugApply b x) = x ∧ (usedAt b.used x = false → plugApply b x = x) ∧
    (∀ y, memRead b.pm x = codeOf y → plugApply b x = y ∧ plugApply b y = x)

/-- R88: `Parse` token by token: a blank separates, a token without blanks gives at most one pair, and which pair it gives, after
`a`..`z` have become `A`..`Z` and every other character has stayed. -/
def Obligations.ParseWorksTokenByToken : Prop :=
  (∀ (s t : List Char) (c : Char), isBlank c = true → parse (s ++ c :: t) = parse s ++ parse t) ∧
  (∀ w : List Char, (∀ c ∈ w, isBlank c = false) → parse w = (pairOfToken w).toList) ∧
  (∀ w : List Char, w.length ≠ 2 → pairOfToken w = none) ∧
  (∀ (c d : Char) (a b : Letter), pairOfToken [c, d] = some (a, b) ↔
    upcase c ≠ upcase d ∧ (upcase c).toNat = 0x41 + a.val ∧ (upcase d).toNat = 0x41 + b.val) ∧
  (∀ c : Char, 0x61 ≤ c.toNat → c.toNat ≤ 0x7A → (upcase c).toNat = c.toNat - 0x20) ∧
  (∀ c : Char, (c.toNat < 0x61 ∨ 0x7A < c.toNat) → upcase c = c) ∧
  (∀ c : Char, isBlank c = true ↔ c.toNat = 0x20 ∨ c.toNat = 0x09 ∨ c.toNat = 0x0A ∨ c.toNat = 0x0D)

/-- R92: from the empty plugboard, the `PAIR` commands of a list of pairs set `PCONF` exactly when `Validate` finds the list invalid,
and otherwise leave exactly its pairs. -/
def Obligations.PairsRealiseValidate : Prop :=
  ∀ (L : List (Letter × Letter)) (s : State), (∀ p ∈ L, p.1 ≠ p.2) → s.mode = .config → s.PlugboardEmpty →
    ∃ t : State, Host.Core.run Sys2Proof.core L.length (s.presentAll (pairCommands L)) = .next t ∧
      t.pconf = !validate L ∧
      (t.pconf = false → ∀ p q : Letter, pairedIn t.pm p q = true ↔ (p, q) ∈ L ∨ (q, p) ∈ L) ∧
      t.toBlock = { s.toBlock with pm := t.pm, used := t.used, pconf := t.pconf }

/-- R97: more than 13 different pairs of two different letters always conflict. -/
def Obligations.FourteenPairsConflict : Prop :=
  ∀ (L : List (Letter × Letter)) (s : State), (∀ p ∈ L, p.1 ≠ p.2) → L.Pairwise (fun p q => samePair p q = false) →
    13 < L.length → s.mode = .config → s.PlugboardEmpty →
    ∃ t : State, Host.Core.run Sys2Proof.core L.length (s.presentAll (pairCommands L)) = .next t ∧ t.pconf = true

/-! ## The stepper (43_stepper.md) -/

/-- R102: `Step` adds one to the base-26 value of the triple, modulo 17576; the value determines the triple and takes every value. -/
def Obligations.OdometerClosedForm : Prop :=
  (∀ k : Offsets, k.InRange → (stepOffsets k).InRange ∧ (stepOffsets k).value = (k.value + 1) % 17576) ∧
  (∀ (n : Nat) (k : Offsets), k.InRange →
    (stepTimes n k).InRange ∧ (stepTimes n k).value = (k.value + n) % 17576 ∧
    (stepTimes n k).k3.toNat = (k.value + n) % 17576 % 26 ∧
    (stepTimes n k).k2.toNat = (k.value + n) % 17576 / 26 % 26 ∧
    (stepTimes n k).k1.toNat = (k.value + n) % 17576 / 676 % 26) ∧
  (∀ k k' : Offsets, k.InRange → k'.InRange → k.value = k'.value → k = k') ∧
  (∀ v < 17576, ∃ k : Offsets, k.InRange ∧ k.value = v)

/-- R103: the sequence of triples is periodic with period exactly 17576, from every triple. -/
def Obligations.OdometerPeriodIsExact : Prop :=
  ∀ (k : Offsets) (n : Nat), k.InRange → (stepTimes n k = k ↔ 17576 ∣ n)

/-- R60: the `KEYS` command of an integer of any size writes its residue modulo 26. -/
def Obligations.KeysWriteTheResidue : Prop :=
  ∀ (s : State) (i : Slot) (key : Int), s.mode = .config →
    ∃ v : Code, (v.toNat : Int) = key % 26 ∧
      exec (keyCommand i key) s = .next { s with k := s.k.write i v, responses := s.responses ++ [0x000000] }

/-! ## The whole transform (44_commands.md) -/

/-- R115: the nine stages in order, each in the numbers of R70, R71, R80 and R93: plugboard, rotors 3, 2, 1, reflector, rotors 1, 2, 3
backward, plugboard. A rotor stage forward takes `x` to `y` where the table holds `y + k` at `x + k`, backward where it holds `x + k`
at `y + k`, modulo 26. -/
def Obligations.EncipherRunsTheNineStages : Prop :=
  ∀ (b : Block) (k : Offsets) (x s1 s2 s3 s4 s5 s6 s7 s8 s9 : Letter), b.TablesValid →
    memRead b.pm x = codeOf s1 →
    (memRead b.w3 (Fin.ofNat 26 (s1.val + k.k3.toNat))).toNat = (s2.val + k.k3.toNat) % 26 →
    (memRead b.w2 (Fin.ofNat 26 (s2.val + k.k2.toNat))).toNat = (s3.val + k.k2.toNat) % 26 →
    (memRead b.w1 (Fin.ofNat 26 (s3.val + k.k1.toNat))).toNat = (s4.val + k.k1.toNat) % 26 →
    memRead b.u s4 = codeOf s5 →
    (memRead b.w1 (Fin.ofNat 26 (s6.val + k.k1.toNat))).toNat = (s5.val + k.k1.toNat) % 26 →
    (memRead b.w2 (Fin.ofNat 26 (s7.val + k.k2.toNat))).toNat = (s6.val + k.k2.toNat) % 26 →
    (memRead b.w3 (Fin.ofNat 26 (s8.val + k.k3.toNat))).toNat = (s7.val + k.k3.toNat) % 26 →
    memRead b.pm s8 = codeOf s9 →
    encipher b k x = s9

/-- R124: under the invariant, in mode `RUN`, enciphering twice with the same triple gives the letter back, and no letter enciphers to
itself. -/
def Obligations.EncipherIsAnInvolution : Prop :=
  ∀ (b : Block) (k : Offsets) (x : Letter), b.Inv → b.mode = .run →
    encipher b k (encipher b k x) = x ∧ encipher b k x ≠ x

/-- R122: the final offsets count the alphabetic symbols, whatever the others are and wherever they stand. -/
def Obligations.FinalOffsetsCountTheLetters : Prop :=
  ∀ (b : Block) (k : Offsets) (msg : List Symbol),
    (runMessage b k msg).2 = stepTimes (msg.filter isAlphabetic).length k

/-- R116, R119: the output has the length of the message, a non-alphabetic symbol stands unchanged at its place, and an alphabetic one is
answered by an alphabetic one. For tables or a partner map that are invalid the last rests on the model's choice that every free value is
a letter (log 4, log 5); in mode `RUN` under the invariant no free value is met. -/
def Obligations.OutputKeepsPositions : Prop :=
  ∀ (b : Block) (k : Offsets) (msg : List Symbol),
    (runMessage b k msg).1.length = msg.length ∧
    ∀ (j : Nat) (x y : Symbol), msg[j]? = some x → (runMessage b k msg).1[j]? = some y →
      isAlphabetic y = isAlphabetic x ∧ (isAlphabetic x = false → y = x)

/-- R114, R119: in mode `RUN` the `CHAR` commands of a message answer `Run`'s output symbols in order and leave `Run`'s triple, and
change nothing else of the block. -/
def Obligations.CharStreamComputesRun : Prop :=
  ∀ (msg : List Symbol) (s : State), s.mode = .run →
    Host.Core.run Sys2Proof.core msg.length (s.presentAll (msgCommands msg)) = .next { s with
      k := (runMessage s.toBlock s.k msg).2,
      responses := s.responses ++ (runMessage s.toBlock s.k msg).1.map (fun y => BitVec.ofNat 24 y.toNat) }

/-- R58: the 26 commands of `ROTOR n, "s"` and of `REFLECTOR "s"`, in rising order of the index, leave the table that the string stands
for in `W1`, `W2`, `W3` for `n` = 1, 2, 3 and in `U`, and change nothing else. -/
def Obligations.RotorStringLoadsItsTable : Prop :=
  (∀ (s : List Char) (p : Letter) (c : Char), s.length = 26 → s[p.val]? = some c → memRead (tableOfString s) p = wiringCode c) ∧
  (∀ (s : List Char) (p : Letter), s.length ≠ 26 → memRead (tableOfString s) p = 31) ∧
  (∀ (c : Char), (wiringCode c).toNat = if 0x41 ≤ c.toNat ∧ c.toNat ≤ 0x5A then c.toNat - 0x41 else 31) ∧
  (∀ (str : List Char) (p : Letter),
    (rotorCommands .one str)[p.val]? = some (.wrw .w1 (codeOf p) (memRead (tableOfString str) p)) ∧
    (rotorCommands .two str)[p.val]? = some (.wrw .w2 (codeOf p) (memRead (tableOfString str) p)) ∧
    (rotorCommands .three str)[p.val]? = some (.wrw .w3 (codeOf p) (memRead (tableOfString str) p)) ∧
    (reflectorCommands str)[p.val]? = some (.wrw .u (codeOf p) (memRead (tableOfString str) p))) ∧
  (∀ str : List Char, (rotorCommands .one str).length = 26 ∧ (rotorCommands .two str).length = 26 ∧
    (rotorCommands .three str).length = 26 ∧ (reflectorCommands str).length = 26) ∧
  (∀ (tbl : WiringTable) (str : List Char) (s : State), s.mode = .config →
    Host.Core.run Sys2Proof.core 26 (s.presentAll (loadTable tbl (tableOfString str))) = .next { s with
      toBlock := s.toBlock.setWiring tbl (tableOfString str),
      responses := s.responses ++ List.replicate 26 0x000000 }) ∧
  (∀ (str : List Char) (s : State), s.mode = .config →
    Host.Core.run Sys2Proof.core 26 (s.presentAll (rotorCommands .one str)) = .next { s with
      w1 := tableOfString str, responses := s.responses ++ List.replicate 26 0x000000 } ∧
    Host.Core.run Sys2Proof.core 26 (s.presentAll (rotorCommands .two str)) = .next { s with
      w2 := tableOfString str, responses := s.responses ++ List.replicate 26 0x000000 } ∧
    Host.Core.run Sys2Proof.core 26 (s.presentAll (rotorCommands .three str)) = .next { s with
      w3 := tableOfString str, responses := s.responses ++ List.replicate 26 0x000000 } ∧
    Host.Core.run Sys2Proof.core 26 (s.presentAll (reflectorCommands str)) = .next { s with
      u := tableOfString str, responses := s.responses ++ List.replicate 26 0x000000 })

/-- R120: the commands of `TRANSFORM`, sent to a block in any state, compute `Transform`: its error in `START`'s response and no
`CHAR`, or its output symbols in order and its final offsets in `RDK`'s response. -/
def Obligations.CommandSequenceComputesTransform : Prop :=
  ∀ (a : TransformArgs) (s : State), (∀ p ∈ a.pairs, p.1 ≠ p.2) →
    (∀ e : BitVec 7, transform a = .error e → ∃ t : State,
      Host.Core.run Sys2Proof.core (openCommands a ++ bodyCommands false a.msg).length
        (s.presentAll (openCommands a ++ bodyCommands false a.msg)) = .next t ∧
      t.responses = s.responses ++ List.replicate (configureCommands a).length 0x000000 ++ [2#2 ++ 0#15 ++ e] ++ [0x000000] ∧
      t.mode = .config ∧ t.pending = s.pending) ∧
    (∀ (out : List Symbol) (k : Offsets), transform a = .ok (out, k) → ∃ t : State,
      Host.Core.run Sys2Proof.core (openCommands a ++ bodyCommands true a.msg).length
        (s.presentAll (openCommands a ++ bodyCommands true a.msg)) = .next t ∧
      t.responses = s.responses ++ List.replicate (configureCommands a).length 0x000000 ++ [0x000000] ++
        out.map (fun y => BitVec.ofNat 24 y.toNat) ++ [0#9 ++ k.k1 ++ k.k2 ++ k.k3] ++ [0x000000] ∧
      t.k = k ∧ t.mode = .config ∧ t.pending = s.pending)

/-- R121: running the output through the same configuration from the same initial offsets gives the message back and ends on the same
final offsets. -/
def Obligations.TransformIsReciprocal : Prop :=
  ∀ (a : TransformArgs) (out : List Symbol) (k : Offsets), (∀ p ∈ a.pairs, p.1 ≠ p.2) →
    transform a = .ok (out, k) → transform { a with msg := out } = .ok (a.msg, k)
end

