-- ==== Sys2Proof/Laws/Encoding.lean ====
section
/-! SUPPORT. Words as numbers: what each field of a word is, what a zero-field test says, and the number each command encodes to (R46). -/

namespace Sys2Proof

theorem toNat_append {n m : Nat} (x : BitVec n) (y : BitVec m) : (x ++ y).toNat = x.toNat * 2 ^ m + y.toNat := by
  rw [BitVec.toNat_append, ← Nat.shiftLeft_add_eq_or_of_lt y.isLt, Nat.shiftLeft_eq]

theorem toNat_field (w : Word) (s l : Nat) : (w.extractLsb' s l).toNat = w.toNat / 2 ^ s % 2 ^ l := by
  simp [BitVec.extractLsb'_toNat, Nat.shiftRight_eq_div_pow]

/-- Masking with `l` ones from bit `s` up keeps that field in its place. -/
theorem and_contiguous (n s l : Nat) : n &&& ((2 ^ l - 1) * 2 ^ s) = n / 2 ^ s % 2 ^ l * 2 ^ s := by
  apply Nat.eq_of_testBit_eq
  intro i
  simp only [← Nat.shiftLeft_eq, ← Nat.shiftRight_eq_div_pow, Nat.testBit_and, Nat.testBit_shiftLeft,
    Nat.testBit_mod_two_pow, Nat.testBit_shiftRight, Nat.testBit_two_pow_sub_one]
  by_cases h : s ≤ i
  · simp [h, Bool.and_comm]
  · simp [h]

/-- A test against a mask of `l` ones from bit `s` up is a test of that field. -/
theorem masked_eq_zero (w m : Word) (s l : Nat) (hm : m.toNat = (2 ^ l - 1) * 2 ^ s) :
    w &&& m = 0 ↔ w.toNat / 2 ^ s % 2 ^ l = 0 := by
  rw [← BitVec.toNat_inj, BitVec.toNat_and, hm, and_contiguous]
  simp

theorem encode_wrw_toNat (tbl : WiringTable) (idx val : Code) :
    (encode (.wrw tbl idx val)).toNat = 2 ^ 20 + tbl.code.toNat * 2 ^ 18 + idx.toNat * 2 ^ 13 + val.toNat * 2 ^ 8 := by
  have h : encode (.wrw tbl idx val) = (1#4 ++ tbl.code ++ idx ++ val ++ 0#8 : BitVec (4 + 2 + 5 + 5 + 8)) := rfl
  rw [h, toNat_append, toNat_append, toNat_append, toNat_append]
  simp only [BitVec.toNat_ofNat]
  omega

theorem encode_setk_toNat (sel : BitVec 2) (imm : BitVec 8) :
    (encode (.setk sel imm)).toNat = 2 * 2 ^ 20 + sel.toNat * 2 ^ 18 + imm.toNat := by
  have h : encode (.setk sel imm) = (2#4 ++ sel ++ 0#10 ++ imm : BitVec (4 + 2 + 10 + 8)) := rfl
  rw [h, toNat_append, toNat_append, toNat_append]
  simp only [BitVec.toNat_ofNat]
  omega

theorem encode_pair_toNat (a b : Code) :
    (encode (.pair a b)).toNat = 3 * 2 ^ 20 + a.toNat * 2 ^ 15 + b.toNat * 2 ^ 10 := by
  have h : encode (.pair a b) = (3#4 ++ a ++ b ++ 0#10 : BitVec (4 + 5 + 5 + 10)) := rfl
  rw [h, toNat_append, toNat_append, toNat_append]
  simp only [BitVec.toNat_ofNat]
  omega

theorem encode_char_toNat (sym : Symbol) : (encode (.char sym)).toNat = 5 * 2 ^ 20 + sym.toNat := by
  have h : encode (.char sym) = (5#4 ++ 0#12 ++ sym : BitVec (4 + 12 + 8)) := rfl
  rw [h, toNat_append, toNat_append]
  simp only [BitVec.toNat_ofNat]
  omega

/-- A field of a word, from the word as a number. -/
theorem field_eq {w : Word} {s l : Nat} {v : BitVec l} (h : w.toNat / 2 ^ s % 2 ^ l = v.toNat) : w.extractLsb' s l = v :=
  BitVec.eq_of_toNat_eq ((toNat_field w s l).trans h)

@[simp] theorem ofCode_code (t : WiringTable) : WiringTable.ofCode t.code = t := by cases t <;> rfl

@[simp] theorem code_ofCode (c : BitVec 2) : (WiringTable.ofCode c).code = c := by
  revert c
  decide

/-- The row of a word whose opcode is known. -/
theorem rowOf_of {w : Word} {n : Nat} (h : (opField w).toNat = n) : rowOf w = rowAt n w := by
  unfold rowOf
  rw [h]

/-- The last two tests pass a command through unchanged, and only a well-formed one (R51). -/
theorem checkFields_ok {i j : Instr} (h : checkFields i = .ok j) : j = i ∧ i.wellFormed = true := by
  cases i <;> simp [checkFields, Instr.wellFormed] at * <;> first | exact h.symm | (split at h <;> simp_all)

/-- Everything the decoder can answer: no row, a 1 in the zero field, or what the field tests say (R53). -/
theorem decode_cases (w : Word) :
    (rowOf w = none ∧ decode w = .error .reservedOpcode) ∨
    (∃ i, rowOf w = some i ∧ w &&& zeroMask (opField w) ≠ 0 ∧ decode w = .error .zeroField) ∨
    (∃ i, rowOf w = some i ∧ w &&& zeroMask (opField w) = 0 ∧ decode w = checkFields i) := by
  unfold decode
  cases h : rowOf w with
  | none => simp
  | some i =>
    by_cases hz : w &&& zeroMask (opField w) = 0
    · exact .inr (.inr ⟨i, rfl, hz, if_neg (fun hn => hn hz)⟩)
    · exact .inr (.inl ⟨i, rfl, hz, if_pos hz⟩)

end Sys2Proof
end

