-- ==== Sys2Proof/Laws/State.lean ====
section
/-! SUPPORT. One lemma for each field and each named update of the state, true by unfolding once. -/

namespace Sys2Proof.Machine

@[simp] theorem answer_toBlock (s : State) (r : Block × Response) : (s.answer r).toBlock = r.1 := rfl
@[simp] theorem answer_pending (s : State) (r : Block × Response) : (s.answer r).pending = s.pending := rfl
@[simp] theorem answer_responses (s : State) (r : Block × Response) :
    (s.answer r).responses = s.responses ++ [r.2.word] := rfl

@[simp] theorem present_toBlock (s : State) (e : HostEvent) : (s.present e).toBlock = s.toBlock := rfl
@[simp] theorem present_pending (s : State) (e : HostEvent) : (s.present e).pending = e :: s.pending := rfl
@[simp] theorem present_responses (s : State) (e : HostEvent) : (s.present e).responses = s.responses := rfl

@[simp] theorem setWiring_k (b : Block) (tbl : WiringTable) (t : Table) : (b.setWiring tbl t).k = b.k := by
  cases tbl <;> rfl
@[simp] theorem setWiring_pm (b : Block) (tbl : WiringTable) (t : Table) : (b.setWiring tbl t).pm = b.pm := by
  cases tbl <;> rfl
@[simp] theorem setWiring_used (b : Block) (tbl : WiringTable) (t : Table) : (b.setWiring tbl t).used = b.used := by
  cases tbl <;> rfl
@[simp] theorem setWiring_pconf (b : Block) (tbl : WiringTable) (t : Table) : (b.setWiring tbl t).pconf = b.pconf := by
  cases tbl <;> rfl
@[simp] theorem setWiring_mode (b : Block) (tbl : WiringTable) (t : Table) : (b.setWiring tbl t).mode = b.mode := by
  cases tbl <;> rfl
@[simp] theorem setWiring_err (b : Block) (tbl : WiringTable) (t : Table) : (b.setWiring tbl t).err = b.err := by
  cases tbl <;> rfl

/-- The four wiring spaces are disjoint (R30). -/
theorem wiring_setWiring (b : Block) (tbl tbl' : WiringTable) (t : Table) :
    (b.setWiring tbl t).wiring tbl' = if tbl' = tbl then t else b.wiring tbl' := by
  cases tbl <;> cases tbl' <;> rfl

/-- A write of one offset register leaves the other two (R104). -/
theorem offsets_read_write (k : Offsets) (i j : Slot) (v : Code) :
    (k.write i v).read j = if j = i then v else k.read j := by
  cases i <;> cases j <;> rfl

@[simp] theorem closeSession_k (b : Block) : (closeSession b).k = b.k := rfl
@[simp] theorem closeSession_wiring (b : Block) (tbl : WiringTable) : (closeSession b).wiring tbl = b.wiring tbl := by
  cases tbl <;> rfl
@[simp] theorem closeSession_pm (b : Block) : (closeSession b).pm = identityTable := rfl
@[simp] theorem closeSession_used (b : Block) : (closeSession b).used = 0 := rfl
@[simp] theorem closeSession_pconf (b : Block) : (closeSession b).pconf = false := rfl
@[simp] theorem closeSession_mode (b : Block) : (closeSession b).mode = .config := rfl
@[simp] theorem closeSession_err (b : Block) : (closeSession b).err = 0 := rfl

@[simp] theorem raise_k (e : BitVec 7) (b : Block) : (raise e b).1.k = b.k := rfl
@[simp] theorem raise_wiring (e : BitVec 7) (b : Block) (tbl : WiringTable) : (raise e b).1.wiring tbl = b.wiring tbl := by
  cases tbl <;> rfl
@[simp] theorem raise_pm (e : BitVec 7) (b : Block) : (raise e b).1.pm = b.pm := rfl
@[simp] theorem raise_used (e : BitVec 7) (b : Block) : (raise e b).1.used = b.used := rfl
@[simp] theorem raise_pconf (e : BitVec 7) (b : Block) : (raise e b).1.pconf = b.pconf := rfl
@[simp] theorem raise_mode (e : BitVec 7) (b : Block) : (raise e b).1.mode = .fault := rfl
@[simp] theorem raise_err (e : BitVec 7) (b : Block) : (raise e b).1.err = e := rfl

@[simp] theorem respondOk_fst (d : BitVec 22) (b : Block) : (respondOk d b).1 = b := rfl
@[simp] theorem respondOk_snd (d : BitVec 22) (b : Block) : (respondOk d b).2 = .ok d := rfl
@[simp] theorem refuse_fst (why : Reason) (b : Block) : (refuse why b).1 = b := rfl
@[simp] theorem refuse_snd (why : Reason) (b : Block) : (refuse why b).2 = .refused why := rfl
@[simp] theorem raise_snd (e : BitVec 7) (b : Block) : (raise e b).2 = .error e := rfl

end Sys2Proof.Machine
end

