-- ==== Sys2Proof/Laws/Ops.lean ====
section
/-! SUPPORT. What each shared operation can do: letters and codes, tables, `USED`, the arbitration of a command. -/

namespace Sys2Proof.Machine

@[simp] theorem codeOf_toNat (x : Letter) : (codeOf x).toNat = x.val := by
  have := x.isLt
  simp only [codeOf, BitVec.toNat_ofNat]
  omega

theorem codeOf_inj (x y : Letter) : codeOf x = codeOf y ↔ x = y := by
  constructor
  · intro h
    have := congrArg BitVec.toNat h
    simp only [codeOf_toNat] at this
    exact Fin.ext this
  · rintro rfl
    rfl

/-- A code is the code of the letter it is read as. -/
theorem letterOf?_eq_some (c : Code) (x : Letter) : letterOf? c = some x ↔ c = codeOf x := by
  unfold letterOf?
  split
  · rename_i h
    simp only [Option.some.injEq]
    constructor
    · rintro rfl
      exact BitVec.eq_of_toNat_eq (by simp)
    · rintro rfl
      simp
  · rename_i h
    simp only [reduceCtorEq, false_iff]
    rintro rfl
    have := x.isLt
    simp only [codeOf_toNat] at h
    omega

theorem letterOf?_eq_none (c : Code) : letterOf? c = none ↔ 26 ≤ c.toNat := by
  unfold letterOf?
  split <;> simp_all

@[simp] theorem letterOf?_codeOf (x : Letter) : letterOf? (codeOf x) = some x := (letterOf?_eq_some _ _).2 rfl

@[simp] theorem letterOf_codeOf (x : Letter) : letterOf (codeOf x) = x := by simp [letterOf]

/-- A code 0..25 is some letter's code. -/
theorem exists_codeOf {c : Code} (h : c.toNat < 26) : ∃ x : Letter, c = codeOf x :=
  ⟨⟨c.toNat, h⟩, BitVec.eq_of_toNat_eq (by simp)⟩

theorem mem_letters (x : Letter) : x ∈ letters := List.mem_finRange x

/-- A read after a write: the value at the place written, the old entry at every other place (R38). -/
theorem memRead_memWrite (t : Table) (p q : Letter) (v : Code) :
    memRead (memWrite t p v) q = if q = p then v else memRead t q := by
  unfold memRead memWrite
  by_cases h : q = p
  · subst h
    simp [Vector.get_eq_getElem]
  · have hne : p.val ≠ q.val := fun e => h (Fin.ext e.symm)
    simp [Vector.get_eq_getElem, h, hne]

@[simp] theorem memRead_identityTable (p : Letter) : memRead identityTable p = codeOf p := by
  simp [memRead, identityTable, codeOf, Vector.get_eq_getElem]

@[simp] theorem memRead_unloadedTable (p : Letter) : memRead unloadedTable p = 31#5 := by
  simp [memRead, unloadedTable, Vector.get_eq_getElem]

/-- Two tables with the same entries are the same table. -/
theorem table_ext {t t' : Table} (h : ∀ p, memRead t p = memRead t' p) : t = t' := by
  apply Vector.ext
  intro i hi
  simpa [memRead, Vector.get_eq_getElem] using h ⟨i, hi⟩

theorem usedAt_markUsed (u : BitVec 26) (p q : Letter) :
    usedAt (markUsed u p) q = (usedAt u q || decide (q = p)) := by
  by_cases h : q = p
  · subst h
    simp [usedAt, markUsed]
  · have : q.val ≠ p.val := fun e => h (Fin.ext e)
    simp [usedAt, markUsed, h, this]

@[simp] theorem usedAt_zero (p : Letter) : usedAt 0 p = false := by simp [usedAt]

/-- A command is refused `ILLEGAL`, refused `WRONG_MODE`, or has its effect (R108, R144). -/
theorem arbitrate_cases (i : Instr) (effect : Block → Block × Response) (b : Block) :
    (i.wellFormed = false ∧ arbitrate i effect b = refuse .illegal b) ∨
    (i.wellFormed = true ∧ admits i.mnemonic b.mode = false ∧ arbitrate i effect b = refuse .wrongMode b) ∨
    (i.wellFormed = true ∧ admits i.mnemonic b.mode = true ∧ arbitrate i effect b = effect b) := by
  unfold arbitrate
  cases i.wellFormed <;> cases admits i.mnemonic b.mode <;> simp

theorem arbitrate_admitted {i : Instr} {b : Block} (effect : Block → Block × Response) (hw : i.wellFormed = true)
    (ha : admits i.mnemonic b.mode = true) : arbitrate i effect b = effect b := by
  simp [arbitrate, hw, ha]

/-- The command of a letter pair: the four branches of `PAIR` (R91). -/
theorem plugPair_letters (p q : Letter) (s : Block) :
    plugPair (codeOf p) (codeOf q) s =
      if p = q then s
      else if usedAt s.used p = false ∧ usedAt s.used q = false then
        { s with pm := memWrite (memWrite s.pm p (codeOf q)) q (codeOf p), used := markUsed (markUsed s.used p) q }
      else if usedAt s.used p = true ∧ memRead s.pm p = codeOf q then s
      else { s with pconf := true } := by
  simp [plugPair]

/-- A pair with a code that is no letter is discarded (R91). -/
theorem plugPair_discard (a b : Code) (s : Block) (h : 26 ≤ a.toNat ∨ 26 ≤ b.toNat) : plugPair a b s = s := by
  unfold plugPair
  rcases h with h | h
  · simp [(letterOf?_eq_none a).2 h]
  · simp only [(letterOf?_eq_none b).2 h]
    cases letterOf? a <;> rfl

theorem letterOfSymbol?_eq_some (s : Symbol) (x : Letter) : letterOfSymbol? s = some x ↔ s = symbolOf x := by
  have hx := x.isLt
  unfold letterOfSymbol?
  split
  · rename_i h
    simp only [Option.some.injEq, symbolOf]
    constructor
    · rintro rfl
      apply BitVec.eq_of_toNat_eq
      simp only [BitVec.toNat_ofNat]
      omega
    · rintro rfl
      apply Fin.ext
      simp only [BitVec.toNat_ofNat]
      omega
  · rename_i h
    simp only [reduceCtorEq, false_iff, symbolOf]
    rintro rfl
    simp only [BitVec.toNat_ofNat] at h
    omega

@[simp] theorem letterOfSymbol?_symbolOf (x : Letter) : letterOfSymbol? (symbolOf x) = some x :=
  (letterOfSymbol?_eq_some _ _).2 rfl

/-- Passthrough exactly outside the alphabet (R34). -/
theorem letterOfSymbol?_eq_none (s : Symbol) : letterOfSymbol? s = none ↔ isAlphabetic s = false := by
  unfold letterOfSymbol? isAlphabetic
  split <;> simp_all

/-- A test over the 26 letters. -/
theorem all_letters {P : Letter → Bool} : letters.all P = true ↔ ∀ p, P p = true := by
  rw [List.all_eq_true]
  exact ⟨fun h p => h p (mem_letters p), fun h p _ => h p⟩

/-- The floor modulus, as an integer (R104). -/
theorem normalise_toNat (i : Int) : ((normalise i).toNat : Int) = i % 26 := by
  unfold normalise
  rw [BitVec.toNat_ofNat]
  omega

/-- A selector other than 0 addresses a register (R51). -/
theorem slotOf?_some (sel : BitVec 2) (h : sel ≠ 0) : ∃ i, slotOf? sel = some i := by
  have : ∀ sel : BitVec 2, sel ≠ 0 → (slotOf? sel).isSome = true := by decide
  exact Option.isSome_iff_exists.1 (this sel h)

/-- One digit of the odometer, as a number (R100). -/
theorem bump_toNat (k : Code) : (bump k).toNat = (k.toNat + 1) % 26 := by
  unfold bump
  rw [BitVec.toNat_ofNat]
  omega

/-- `PAIR` writes the plugboard and nothing else (R91). -/
theorem plugPair_frame (a b : Code) (s : Block) :
    plugPair a b s =
      { s with pm := (plugPair a b s).pm, used := (plugPair a b s).used, pconf := (plugPair a b s).pconf } := by
  unfold plugPair
  split <;> (try split) <;> (try split) <;> (try split) <;> rfl

theorem openSession_ok {b : Block} (h : checks b = 0) : openSession b = respondOk 0 { b with mode := .run } := if_pos h

theorem openSession_fail {b : Block} (h : ¬ checks b = 0) : openSession b = raise (checks b) b := if_neg h

/-- The configuration commands and `START` are admitted in `CONFIG` only (R109). -/
theorem admits_config {i : Instr} {m : Mode} (h : admits i.mnemonic m = true)
    (hi : i.mnemonic = .wrw ∨ i.mnemonic = .setk ∨ i.mnemonic = .pair ∨ i.mnemonic = .start) : m = .config := by
  rcases hi with e | e | e | e <;> rw [e] at h <;> cases m <;> first | rfl | cases h

/-- A valid rotor: every entry is a letter, and every letter is found at exactly one place (R75). -/
theorem validRotor_spec (t : Table) : validRotor t = true ↔
    (∀ p, (memRead t p).toNat ≤ 25) ∧ ∀ c : Letter, ∃ p, (letters.filter fun q => memRead t q == codeOf c) = [p] := by
  unfold validRotor
  rw [Bool.and_eq_true, all_letters, all_letters]
  simp only [decide_eq_true_eq, beq_iff_eq, List.length_eq_one_iff]

/-- The one place that a search finds is the one place that holds the letter. -/
theorem found_iff {t : Table} {c p : Letter} (h : (letters.filter fun q => memRead t q == codeOf c) = [p]) (q : Letter) :
    memRead t q = codeOf c ↔ q = p := by
  have hq : q ∈ (letters.filter fun q => memRead t q == codeOf c) ↔ memRead t q = codeOf c := by simp [mem_letters]
  rw [h] at hq
  rw [← hq]
  simp

end Sys2Proof.Machine
end

