-- ==== Sys2Proof/Laws/PerInstr.lean ====
section
/-! SUPPORT. Two laws of the encoding, one lemma for each command: the opcode stands in bits 23:20, and the zero field is zero
(R46, R49). -/

namespace Sys2Proof.Laws

/-- The opcode of the encoded command stands in `cmd[23:20]` (R46). -/
def EncodeOpcode.Statement (i : Instr) : Prop := opField (encode i) = i.opcode

/-- The encoded command has no 1 in a zero field of its format (R49). -/
def EncodeZeroField.Statement (i : Instr) : Prop := encode i &&& zeroMask i.opcode = 0

/-- A word's opcode field, from the word as a number. -/
theorem opField_eq {w : Word} {c : BitVec 4} (h : w.toNat / 2 ^ 20 % 2 ^ 4 = c.toNat) : opField w = c :=
  BitVec.eq_of_toNat_eq ((toNat_field w 20 4).trans h)

theorem EncodeOpcode.nop : EncodeOpcode.Statement .nop := by
  unfold EncodeOpcode.Statement
  decide

theorem EncodeZeroField.nop : EncodeZeroField.Statement .nop := by
  unfold EncodeZeroField.Statement
  decide

theorem EncodeOpcode.start : EncodeOpcode.Statement .start := by
  unfold EncodeOpcode.Statement
  decide

theorem EncodeZeroField.start : EncodeZeroField.Statement .start := by
  unfold EncodeZeroField.Statement
  decide

theorem EncodeOpcode.stop : EncodeOpcode.Statement .stop := by
  unfold EncodeOpcode.Statement
  decide

theorem EncodeZeroField.stop : EncodeZeroField.Statement .stop := by
  unfold EncodeZeroField.Statement
  decide

theorem EncodeOpcode.rdk : EncodeOpcode.Statement .rdk := by
  unfold EncodeOpcode.Statement
  decide

theorem EncodeZeroField.rdk : EncodeZeroField.Statement .rdk := by
  unfold EncodeZeroField.Statement
  decide

theorem EncodeOpcode.rdst : EncodeOpcode.Statement .rdst := by
  unfold EncodeOpcode.Statement
  decide

theorem EncodeZeroField.rdst : EncodeZeroField.Statement .rdst := by
  unfold EncodeZeroField.Statement
  decide

theorem EncodeOpcode.wrw (tbl : WiringTable) (idx val : Code) : EncodeOpcode.Statement (.wrw tbl idx val) := by
  refine opField_eq ?_
  have h0 := (tbl.code).isLt
  have h1 := (idx).isLt
  have h2 := (val).isLt
  rw [encode_wrw_toNat]
  show _ = 1
  omega

theorem EncodeZeroField.wrw (tbl : WiringTable) (idx val : Code) : EncodeZeroField.Statement (.wrw tbl idx val) := by
  refine (masked_eq_zero _ _ 0 8 rfl).2 ?_
  have h0 := (tbl.code).isLt
  have h1 := (idx).isLt
  have h2 := (val).isLt
  rw [encode_wrw_toNat]
  omega

theorem EncodeOpcode.setk (sel : BitVec 2) (imm : BitVec 8) : EncodeOpcode.Statement (.setk sel imm) := by
  refine opField_eq ?_
  have h0 := (sel).isLt
  have h1 := (imm).isLt
  rw [encode_setk_toNat]
  show _ = 2
  omega

theorem EncodeZeroField.setk (sel : BitVec 2) (imm : BitVec 8) : EncodeZeroField.Statement (.setk sel imm) := by
  refine (masked_eq_zero _ _ 8 10 rfl).2 ?_
  have h0 := (sel).isLt
  have h1 := (imm).isLt
  rw [encode_setk_toNat]
  omega

theorem EncodeOpcode.pair (a b : Code) : EncodeOpcode.Statement (.pair a b) := by
  refine opField_eq ?_
  have h0 := (a).isLt
  have h1 := (b).isLt
  rw [encode_pair_toNat]
  show _ = 3
  omega

theorem EncodeZeroField.pair (a b : Code) : EncodeZeroField.Statement (.pair a b) := by
  refine (masked_eq_zero _ _ 0 10 rfl).2 ?_
  have h0 := (a).isLt
  have h1 := (b).isLt
  rw [encode_pair_toNat]
  omega

theorem EncodeOpcode.char (sym : Symbol) : EncodeOpcode.Statement (.char sym) := by
  refine opField_eq ?_
  have h0 := (sym).isLt
  rw [encode_char_toNat]
  show _ = 5
  omega

theorem EncodeZeroField.char (sym : Symbol) : EncodeZeroField.Statement (.char sym) := by
  refine (masked_eq_zero _ _ 8 12 rfl).2 ?_
  have h0 := (sym).isLt
  rw [encode_char_toNat]
  omega

end Sys2Proof.Laws
end

