-- ==== Sys2Proof/Laws/Step.lean ====
section
/-! SUPPORT. What `exec` and `step` can do, said once: `exec` is the answer of a total function of the block, and a step is idle, a
reset, a command or a refused word. -/

namespace Sys2Proof.Machine

/-- The step of the block alone: the total function from state and command to next state and response (R108). -/
def respond (i : Instr) (b : Block) : Block × Response :=
  match i with
  | .nop => arbitrate .nop (respondOk 0) b
  | .wrw tbl idx val => arbitrate (.wrw tbl idx val) (writeWiring tbl idx val) b
  | .setk sel imm => arbitrate (.setk sel imm) (setOffset sel imm) b
  | .pair x y => arbitrate (.pair x y) (fun blk => respondOk 0 (plugPair x y blk)) b
  | .start => arbitrate .start openSession b
  | .char sym => arbitrate (.char sym) (processSymbol sym) b
  | .stop => arbitrate .stop (fun blk => respondOk 0 (closeSession blk)) b
  | .rdk => arbitrate .rdk (fun blk => respondOk (offsetsData blk.k) blk) b
  | .rdst => arbitrate .rdst (fun blk => respondOk (statusData blk) blk) b

/-- Every command completes: `exec` answers a next state, and what it holds is the block's own step (R108). -/
theorem exec_eq_answer (i : Instr) (s : State) : exec i s = .next (s.answer (respond i s.toBlock)) := by
  cases i <;> rfl

theorem step_idle {s : State} (h : s.pending = []) : step s = .next s := by
  simp [step, takeEvent, h, idle]

theorem step_reset {s : State} {rest : List HostEvent} (h : s.pending = .reset :: rest) :
    step s = .next { s with toBlock := Block.reset, pending := rest } := by
  simp [step, takeEvent, h, resetBlock]

theorem step_command {s : State} {w : Word} {rest : List HostEvent} {i : Instr} (h : s.pending = .command w :: rest)
    (hd : decode w = .ok i) :
    step s = .next (({ s with pending := rest } : State).answer (respond i s.toBlock)) := by
  simp [step, takeEvent, h, hd, exec_eq_answer]

theorem step_illegal {s : State} {w : Word} {rest : List HostEvent} {e : Illegal} (h : s.pending = .command w :: rest)
    (hd : decode w = .error e) :
    step s = .next (({ s with pending := rest } : State).answer (refuse .illegal s.toBlock)) := by
  simp [step, takeEvent, h, hd, refuseWord]

/-- Everything a step can do. -/
theorem step_cases {s t : State} (h : step s = .next t) :
    (s.pending = [] ∧ t = s) ∨
    (∃ rest, s.pending = .reset :: rest ∧ t = { s with toBlock := Block.reset, pending := rest }) ∨
    (∃ w rest i, s.pending = .command w :: rest ∧ decode w = .ok i ∧
      t = ({ s with pending := rest } : State).answer (respond i s.toBlock)) ∨
    (∃ w rest e, s.pending = .command w :: rest ∧ decode w = .error e ∧
      t = ({ s with pending := rest } : State).answer (refuse .illegal s.toBlock)) := by
  rcases hp : s.pending with _ | ⟨e, rest⟩
  · rw [step_idle hp] at h
    exact .inl ⟨rfl, by simpa using h.symm⟩
  · cases e with
    | reset =>
      rw [step_reset hp] at h
      exact .inr (.inl ⟨rest, rfl, by simpa using h.symm⟩)
    | command w =>
      cases hd : decode w with
      | ok i =>
        rw [step_command hp hd] at h
        exact .inr (.inr (.inl ⟨w, rest, i, rfl, hd, by simpa using h.symm⟩))
      | error e =>
        rw [step_illegal hp hd] at h
        exact .inr (.inr (.inr ⟨w, rest, e, rfl, hd, by simpa using h.symm⟩))

/-- The machine never stops (R136). -/
theorem step_total (s : State) : ∃ t, step s = .next t := by
  rcases hp : s.pending with _ | ⟨e, rest⟩
  · exact ⟨_, step_idle hp⟩
  · cases e with
    | reset => exact ⟨_, step_reset hp⟩
    | command w =>
      cases hd : decode w with
      | ok i => exact ⟨_, step_command hp hd⟩
      | error e => exact ⟨_, step_illegal hp hd⟩

/-- A property of blocks that reset has and every command keeps is kept by every step. -/
theorem step_keeps {P : Block → Prop} (hr : P Block.reset) (hc : ∀ i b, P b → P (respond i b).1) {s t : State}
    (h : step s = .next t) (hs : P s.toBlock) : P t.toBlock := by
  rcases step_cases h with ⟨-, rfl⟩ | ⟨rest, -, rfl⟩ | ⟨w, rest, i, -, -, rfl⟩ | ⟨w, rest, e, -, -, rfl⟩
  · exact hs
  · exact hr
  · exact hc i _ hs
  · exact hs

/-- The three outcomes of a command: refused with the block unchanged, `START`'s error, or an answer `OK` (R136). -/
theorem respond_cases (i : Instr) (b : Block) :
    (∃ why, respond i b = refuse why b) ∨
    (i = .start ∧ b.mode = .config ∧ checks b ≠ 0 ∧ respond i b = raise (checks b) b) ∨
    (i.wellFormed = true ∧ admits i.mnemonic b.mode = true ∧ ∃ d, (respond i b).2 = .ok d) := by
  have lift : ∀ effect : Block → Block × Response, respond i b = arbitrate i effect b →
      (∀ _ : i.wellFormed = true, ∃ d, (effect b).2 = .ok d) →
      (∃ why, respond i b = refuse why b) ∨
      (i.wellFormed = true ∧ admits i.mnemonic b.mode = true ∧ ∃ d, (respond i b).2 = .ok d) := by
    intro effect hr hok
    rcases arbitrate_cases i effect b with ⟨-, h⟩ | ⟨-, -, h⟩ | ⟨hw, ha, h⟩
    · exact .inl ⟨_, hr.trans h⟩
    · exact .inl ⟨_, hr.trans h⟩
    · exact .inr ⟨hw, ha, by rw [hr, h]; exact hok hw⟩
  cases i with
  | start =>
    rcases arbitrate_cases .start openSession b with ⟨-, h⟩ | ⟨-, -, h⟩ | ⟨hw, ha, h⟩
    · exact .inl ⟨_, h⟩
    · exact .inl ⟨_, h⟩
    · by_cases hc : checks b = 0
      · exact .inr (.inr ⟨hw, ha, 0, by show (arbitrate _ _ _).2 = _; rw [h, openSession_ok hc]; rfl⟩)
      · exact .inr (.inl ⟨rfl, admits_config ha (by simp [Instr.mnemonic]), hc, h.trans (openSession_fail hc)⟩)
  | nop => exact (lift (respondOk 0) rfl fun _ => ⟨_, rfl⟩).imp_right .inr
  | wrw tbl idx val =>
    refine (lift _ rfl fun hw => ⟨0, ?_⟩).imp_right .inr
    obtain ⟨x, rfl⟩ := exists_codeOf (c := idx) (by simpa [Instr.wellFormed] using hw)
    simp [writeWiring]
  | setk sel imm =>
    refine (lift _ rfl fun hw => ⟨0, ?_⟩).imp_right .inr
    obtain ⟨j, hj⟩ := slotOf?_some sel (by simpa [Instr.wellFormed] using hw)
    simp [setOffset, hj]
  | pair x y => exact (lift (fun blk => respondOk 0 (plugPair x y blk)) rfl fun _ => ⟨_, rfl⟩).imp_right .inr
  | char sym =>
    refine (lift _ rfl fun _ => ?_).imp_right .inr
    unfold processSymbol
    split <;> exact ⟨_, rfl⟩
  | stop => exact (lift (fun blk => respondOk 0 (closeSession blk)) rfl fun _ => ⟨_, rfl⟩).imp_right .inr
  | rdk => exact (lift (fun blk => respondOk (offsetsData blk.k) blk) rfl fun _ => ⟨_, rfl⟩).imp_right .inr
  | rdst => exact (lift (fun blk => respondOk (statusData blk) blk) rfl fun _ => ⟨_, rfl⟩).imp_right .inr

end Sys2Proof.Machine
end

