-- ==== Sys2Proof/Laws/Session.lean ====
section
/-! SUPPORT. Several steps, one after another, and the code of each response (R40, R54). -/

namespace Sys2Proof.Machine

theorem run_next {s t : State} {n : Nat} (h : step s = .next t) :
    Host.Core.run Sys2Proof.core (n + 1) s = Host.Core.run Sys2Proof.core n t := by
  have h' : Sys2Proof.core.step s = .next t := h
  simp only [Host.Core.run, h']

theorem run_append (m n : Nat) (s t : State) (h : Host.Core.run Sys2Proof.core m s = .next t) :
    Host.Core.run Sys2Proof.core (m + n) s = Host.Core.run Sys2Proof.core n t := by
  induction m generalizing s with
  | zero =>
    cases h
    rw [Nat.zero_add]
  | succ m ih =>
    obtain ⟨u, hu⟩ := step_total s
    rw [run_next hu] at h
    rw [show m + 1 + n = (m + n) + 1 by omega, run_next hu]
    exact ih u h

theorem presentAll_append (s : State) (a b : List Instr) : s.presentAll (a ++ b) = (s.presentAll b).presentAll a := by
  simp [State.presentAll, List.append_assoc]

/-- The first of the commands presented is executed, the others stay presented. -/
theorem run_presentAll_cons {s t : State} {i : Instr} (n : Nat) (cmds : List Instr) (hd : decode (encode i) = .ok i)
    (h : exec i s = .next t) :
    Host.Core.run Sys2Proof.core (n + 1) (s.presentAll (i :: cmds)) = Host.Core.run Sys2Proof.core n (t.presentAll cmds) := by
  refine run_next ?_
  rw [step_command (w := encode i) (rest := cmds.map (fun j => HostEvent.command (encode j)) ++ s.pending) rfl hd]
  rw [exec_eq_answer] at h
  cases h
  rfl

/-- The commands executed one after another, with nothing taken off the port. -/
def execAll : List Instr → State → State
  | [], s => s
  | i :: cmds, s => execAll cmds (s.answer (respond i s.toBlock))

theorem execAll_append (a b : List Instr) (s : State) : execAll (a ++ b) s = execAll b (execAll a s) := by
  induction a generalizing s with
  | nil => rfl
  | cons i a ih => exact ih _

@[simp] theorem execAll_pending (cmds : List Instr) (s : State) : (execAll cmds s).pending = s.pending := by
  induction cmds generalizing s with
  | nil => rfl
  | cons i cmds ih => exact ih _

/-- A run over presented commands is their execution in order. -/
theorem run_presentAll (cmds : List Instr) (s : State) (hd : ∀ i ∈ cmds, decode (encode i) = .ok i) :
    Host.Core.run Sys2Proof.core cmds.length (s.presentAll cmds) = .next (execAll cmds s) := by
  induction cmds generalizing s with
  | nil => rfl
  | cons i cmds ih =>
    rw [List.length_cons, run_presentAll_cons _ _ (hd i (by simp)) (exec_eq_answer i s)]
    exact ih _ fun j hj => hd j (by simp [hj])

@[simp] theorem responseCode_ok (d : BitVec 22) : responseCode (Response.ok d).word = 0 := by
  have := d.isLt
  apply BitVec.eq_of_toNat_eq
  rw [responseCode, toNat_field, show (Response.ok d).word = 0#2 ++ d from rfl, toNat_append]
  show _ = 0
  simp only [BitVec.toNat_ofNat]
  omega

@[simp] theorem responseCode_refused (why : Reason) : responseCode (Response.refused why).word = 1 := by
  cases why <;> decide

@[simp] theorem responseCode_error (e : BitVec 7) : responseCode (Response.error e).word = 2 := by
  revert e
  decide

end Sys2Proof.Machine
end

