-- ==== Sys2Proof/Tests/Slice0.lean ====
section
/-! SUPPORT. Tests, each with its source in spec/, and for every statement with hypotheses a witness that meets them together. -/

namespace Sys2Proof.Tests

open Sys2Proof.Machine

/-! ## Small states -/

/-- Fixture G of 95_test_vectors.md §2, as launch state. -/
def fixtureG : Block :=
  Block.launch (tableOfString "EKMFLGDQVZNTOWYHXUSPAIBRCJ".toList) (tableOfString "AJDKSIRUXBLHWTMCQGZNPYFVOE".toList)
    (tableOfString "BDFHJLCPRTXVZNYEIWGAKMUSQO".toList) (tableOfString "YRUHQSLDPXNGOKMIEBFZCWVJAT".toList)

/-- A session under way: fixture G, pair `AB`, offsets (25,25,25). -/
def running : Block := { plugPair 0 1 fixtureG with mode := .run, k := ⟨25, 25, 25⟩ }

/-- The fault of a `START` right after reset (P1). -/
def faulted : Block := (raise 0x0F Block.reset).1

/-- A block, and the events that stand on its command port. -/
def stateOf (b : Block) (events : List HostEvent) : State := { toBlock := b, pending := events, responses := [] }

/-- The state after one step on one command word. -/
def after (b : Block) (w : Word) : Option State :=
  match step (stateOf b [.command w]) with
  | .next t => some t
  | _ => none

/-! ## Well-formedness: the two checks of R51 -/

theorem test_index_out_of_range_is_ill_formed : (Instr.wrw .w2 26 0).wellFormed = false := by decide
theorem test_selector_zero_is_ill_formed : (Instr.setk 0 0).wellFormed = false := by decide
theorem test_index_25_is_well_formed : (Instr.wrw .u 25 31).wellFormed = true := by decide

/-! ## Decoding: words written out bit by bit from the formats of R46 and the opcodes of R47 -/

theorem test_decode_nop : decode 0b0000_00000000000000000000#24 = .ok .nop := by decide
theorem test_decode_wrw : decode 0b0001_10_11001_11111_00000000#24 = .ok (.wrw .w2 25 31) := by decide
theorem test_decode_wrw_index : decode 0b0001_10_11010_00000_00000000#24 = .error .indexOutOfRange := by decide
theorem test_decode_setk : decode 0b0010_11_0000000000_10000000#24 = .ok (.setk 3 0x80) := by decide
theorem test_decode_setk_selector : decode 0b0010_00_0000000000_00000001#24 = .error .selectorZero := by decide
theorem test_decode_pair : decode 0b0011_00001_10010_0000000000#24 = .ok (.pair 1 18) := by decide
theorem test_decode_start : decode 0b0100_00000000000000000000#24 = .ok .start := by decide
theorem test_decode_char : decode 0b0101_000000000000_01011010#24 = .ok (.char 0x5A) := by decide
theorem test_decode_stop : decode 0b0110_00000000000000000000#24 = .ok .stop := by decide
theorem test_decode_rdk : decode 0b0111_00000000000000000000#24 = .ok .rdk := by decide
theorem test_decode_rdst : decode 0b1000_00000000000000000000#24 = .ok .rdst := by decide
theorem test_decode_reserved : decode 0b1001_00000000000000000000#24 = .error .reservedOpcode := by decide
theorem test_decode_zero_field : decode 0b0110_10000000000000000000#24 = .error .zeroField := by decide

/-- The word of `SETK` with all operand bits 0 has selector 0: no command (R51). -/
theorem test_table_word_setk_zero : decodeTableWord 24 0x200000 = none := by decide
theorem test_table_word_start : decodeTableWord 24 0x400000 = some .start := by decide
theorem test_fetch_runs_the_word : (step (State.reset.withFetchWord 24 0x240005)) =
    .next { State.reset with k := ⟨5, 0, 0⟩, responses := [0x000000] } := rfl

/-- 95_test_vectors.md §3.7 and 00_scope.md §4.1: numbers in hexadecimal and binary; `imm` is decimal only (R57). -/
theorem test_assemble_numbers : assemble "CHAR 0xFF ; wide".toList = some (.char 0xFF) ∧
    assemble "WRW 0b10, 26, 0".toList = some (.wrw .w2 26 0) ∧ assemble "SETK 3, 0x19".toList = none ∧
    assemble "CHAR 0x".toList = none ∧ assemble "PAIR 32, 0".toList = none := by decide

/-! ## Meanings (95_test_vectors.md §3 and §4) -/

/-- §3.7: `NOP` in `FAULT`. -/
theorem test_nop : after faulted 0x000000 = some { stateOf faulted [] with responses := [0x000000] } := by decide
/-- §2: the first load command of fixture G, `W1` entry `A`. -/
theorem test_wrw : (after Block.reset 0x140400).map (fun t => (memRead t.w1 0, memRead t.w1 1, memRead t.w2 0)) =
    some (4, 31, 31) := by decide
/-- §3.7: `WRW` in `RUN`. -/
theorem test_wrw_wrong_mode : (after running 0x140000).map (fun t => t.responses) = some [0x400002] := by decide
/-- §3.6: `SETK 3, -1` and `SETK 3, -128`. -/
theorem test_setk_minus_one : (after Block.reset 0x2C00FF).map (fun t => t.k) = some ⟨0, 0, 25⟩ := by decide
theorem test_setk_minus_128 : (after Block.reset 0x2C0080).map (fun t => t.k) = some ⟨0, 0, 2⟩ := by decide
/-- §3.5: `PAIR A, Z`, and the conflict of `PAIR A, B`, `PAIR A, C`. -/
theorem test_pair : (after Block.reset 0x306400).map (fun t => (memRead t.pm 0, memRead t.pm 25, t.used, t.pconf)) =
    some (25, 0, 0x2000001, false) := by decide
theorem test_pair_conflict : (after (plugPair 0 1 Block.reset) 0x300800).map
    (fun t => (memRead t.pm 0, memRead t.pm 2, t.used, t.pconf)) = some (1, 2, 3, true) := by decide
/-- P1: `START` with nothing loaded; and with fixture G. -/
theorem test_start_raises : (after Block.reset 0x400000).map (fun t => (t.responses, t.mode, t.err)) =
    some ([0x80000F], .fault, 0x0F) := by decide
theorem test_start_opens : (after fixtureG 0x400000).map (fun t => (t.responses, t.mode, t.err)) =
    some ([0x000000], .run, 0) := by decide
/-- §3.8: fixture G enciphers `A` at (0,0,0) to `U` and steps; `,` passes through. -/
theorem test_char : (after { fixtureG with mode := .run } 0x500041).map (fun t => (t.responses, t.k)) =
    some ([0x000055], ⟨0, 0, 1⟩) := by decide
theorem test_char_passthrough : (after running 0x50002C).map (fun t => (t.responses, t.k)) =
    some ([0x00002C], ⟨25, 25, 25⟩) := by decide
/-- P1: `STOP` leaves the fault. -/
theorem test_stop_leaves_fault : (after faulted 0x600000).map (fun t => t.toBlock) = some Block.reset := by decide
/-- §3.6: `RDK` answers (25,25,25) with 0x006739. -/
theorem test_rdk : (after running 0x700000).map (fun t => t.responses) = some [0x006739] := by decide
/-- §3.7, P1: `RDST` in `RUN` and in the fault of P1. -/
theorem test_rdst_run : (after running 0x800000).map (fun t => t.responses) = some [0x000100] := by decide
theorem test_rdst_fault : (after faulted 0x800000).map (fun t => t.responses) = some [0x00020F] := by decide

/-- §3.6: the odometer's double carry. -/
theorem test_step_double_carry : stepOffsets ⟨24, 25, 25⟩ = ⟨25, 0, 0⟩ := by decide
/-- §3.3: the core of fixture G at (1,2,3). -/
theorem test_core : rotorCore fixtureG ⟨1, 2, 3⟩ 0 = 9 := by decide
/-- §3.4: twelve swaps with `Y` and `Z` fixed: a permutation, not an involution without fixed point. -/
theorem test_reflector_fixed_point : (permU (tableOfString "BADCFEHGJILKNMPORQTSVUXWYZ".toList),
    involU (tableOfString "BADCFEHGJILKNMPORQTSVUXWYZ".toList)) = (true, false) := by decide
/-- §3.5: `Parse`. -/
theorem test_parse : parse "ab  Cd\tEF A1 aA XYZ".toList = [(0, 1), (2, 3), (4, 5)] := by decide

/-! ## Witnesses: for each statement with hypotheses, values that meet them, clause by clause -/

/-- For DecodeOfEncodeIsIdentity, EncodeOfDecodeIsIdentity. -/
theorem witness_encoding : (Instr.wrw .w3 25 31).wellFormed = true ∧ (Instr.setk 3 0x80).wellFormed = true ∧
    decode 0x1F3F00 = .ok (.wrw .w3 25 31) ∧ decode 0x2C0080 = .ok (.setk 3 0x80) := by decide

/-- For DecodeFollowsOpcodeMap. -/
theorem witness_opcode_map : ⟨.wrw, 0x100000, 0xF000FF⟩ ∈ opcodeMap ∧ ⟨.setk, 0x200000, 0xF3FF00⟩ ∈ opcodeMap ∧
    OpcodeRow.selects ⟨.wrw, 0x100000, 0xF000FF⟩ 0x1F3F00 = true ∧ (BitVec.extractLsb' 13 5 0x1F3F00#24).toNat ≤ 25 ∧
    OpcodeRow.selects ⟨.setk, 0x200000, 0xF3FF00⟩ 0x2C0080 = true ∧ BitVec.extractLsb' 18 2 0x2C0080#24 ≠ 0 := by decide

/-- For IllegalWordsAreRefusedUnchanged. -/
theorem witness_illegal_words : malformed 0x1B4000 = true ∧ malformed 0x200000 = true ∧ malformed 0x000001 = true ∧
    malformed 0x900000 = true ∧ malformed 0x133F00 = false ∧
    (stateOf running [.command 0x1B4000]).pending = .command 0x1B4000 :: [] := by decide

/-- For StepRunsTheDecodedCommand, StepOnResetAndIdle, ThreeOutcomesOfACommand. -/
theorem witness_step : (stateOf running [.command 0x500041, .reset]).pending = .command 0x500041 :: [.reset] ∧
    decode 0x500041 = .ok (.char 0x41) ∧ (stateOf running [.reset]).pending = .reset :: [] ∧
    (stateOf running []).pending = [] := by decide

/-- For ResponseDependsOnBlockAndWordAlone. -/
theorem witness_response_depends_on_block : (stateOf running [.command 0x700000]).toBlock =
      ({ stateOf running [.command 0x700000, .reset] with responses := [7] } : State).toBlock ∧
    (stateOf running [.command 0x700000]).pending = .command 0x700000 :: [] := by decide

/-- For OneResponsePerCommandInOrder. -/
theorem witness_responses_in_order : (stateOf faulted [.command 0x600000, .command 0x700000, .reset]).pending =
    [0x600000, 0x700000].map HostEvent.command ++ [.reset] := by decide

/-- For AdmissionByMode. -/
theorem witness_admission : (Instr.wrw .u 25 0).wellFormed = true ∧ (Instr.wrw .u 25 0).mnemonic = .wrw ∧
    (stateOf running []).mode ≠ .config ∧ (Instr.char 0x41).mnemonic = .char ∧ (stateOf faulted []).mode ≠ .run ∧
    (stateOf fixtureG []).mode = .config ∧ (stateOf running []).mode = .run := by decide

/-- For ModeTransitions. Each clause of the transitions: reset, `STOP`, `START` with no check failing and with one failing,
`START` in another mode, any other command. -/
theorem witness_mode_transitions :
    (∃ t, step (stateOf running [.reset]) = .next t) ∧
    (∃ t, step (stateOf running [.command 0x600000]) = .next t) ∧ decode 0x600000 = .ok .stop ∧
    (∃ t, step (stateOf fixtureG [.command 0x400000]) = .next t) ∧ decode 0x400000 = .ok .start ∧
    fixtureG.mode = .config ∧ checks fixtureG = 0 ∧ Block.reset.mode = .config ∧ checks Block.reset ≠ 0 ∧
    running.mode ≠ .config ∧ decode 0x000000 ≠ .ok .stop ∧ decode 0x000000 ≠ .ok .start := by
  refine ⟨step_total _, step_total _, ?_, step_total _, ?_⟩ <;> decide

/-- For OnlyStartRaises. -/
theorem witness_only_start_raises : ∃ t, step (stateOf Block.reset [.command 0x400000]) = .next t ∧
    t.responses = [] ++ [0x80000F] ∧ responseCode 0x80000F = 2 := ⟨_, rfl, by decide, by decide⟩

/-- For FaultIsLeftOnlyByStopOrReset. -/
theorem witness_fault_left : faulted.mode = .fault ∧
    (∃ t, step (stateOf faulted [.command 0x600000]) = .next t ∧ t.mode ≠ .fault) ∧
    (∃ t, step (stateOf faulted [.reset]) = .next t ∧ t.mode ≠ .fault) :=
  ⟨by decide, ⟨_, rfl, by decide⟩, ⟨_, rfl, by decide⟩⟩

/-- For WrwWritesOneEntry; RotorStringLoadsItsTable (the mode). -/
theorem witness_wrw : (0x1F3F00#24 &&& 0xF000FF = 0x100000 ∧ (BitVec.extractLsb' 13 5 0x1F3F00#24).toNat ≤ 25) ∧
    (stateOf fixtureG []).mode = .config ∧ (stateOf running []).mode ≠ .config ∧ 26 ≤ (26#5).toNat := by decide

/-- For SetkNormalisesOneOffset; KeysWriteTheResidue (the mode). -/
theorem witness_setk : (0x2C0080#24 &&& 0xF3FF00 = 0x200000 ∧ BitVec.extractLsb' 18 2 0x2C0080#24 ≠ 0) ∧
    (1 : BitVec 2) ≠ 0 ∧ (3 : BitVec 2) ≠ 0 ∧ (stateOf fixtureG []).mode = .config ∧
    (stateOf running []).mode ≠ .config := by decide

/-- For PairTakesOneOfFourBranches. The branches of `PAIR` on the block with the pair `AB`: discarded (three ways), new, again
(both orders), in conflict (both ways). -/
theorem witness_pair : 0x3FFC00#24 &&& 0xF003FF = 0x300000 ∧ (plugPair 0 1 fixtureG).mode = .config ∧
    26 ≤ (26#5).toNat ∧ codeOf 4 = codeOf 4 ∧
    usedAt (plugPair 0 1 fixtureG).used 24 = false ∧ usedAt (plugPair 0 1 fixtureG).used 25 = false ∧
    usedAt (plugPair 0 1 fixtureG).used 0 = true ∧ memRead (plugPair 0 1 fixtureG).pm 0 = codeOf 1 ∧
    usedAt (plugPair 0 1 fixtureG).used 1 = true ∧ memRead (plugPair 0 1 fixtureG).pm 1 = codeOf 0 ∧
    ¬ (usedAt (plugPair 0 1 fixtureG).used 0 = true ∧ memRead (plugPair 0 1 fixtureG).pm 0 = codeOf 2) ∧
    ¬ (usedAt (plugPair 0 1 fixtureG).used 2 = true ∧ memRead (plugPair 0 1 fixtureG).pm 2 = codeOf 1) ∧
    running.mode ≠ .config := by decide

/-- For StartOpensOrRaises. -/
theorem witness_start : (fixtureG.mode = .config ∧ checks fixtureG = 0) ∧
    (Block.reset.mode = .config ∧ checks Block.reset ≠ 0) ∧ faulted.mode ≠ .config := by decide

/-- For CharEnciphersThenSteps; CharStreamComputesRun (the mode). `CHAR` at the ends of the alphabet and just outside it. -/
theorem witness_char : 0x5000FF#24 &&& 0xFFFF00 = 0x500000 ∧ running.mode = .run ∧ faulted.mode ≠ .run ∧
    (0x41#8).toNat = 0x41 + (0 : Letter).val ∧ (0x5A#8).toNat = 0x41 + (25 : Letter).val ∧
    (0x40#8).toNat < 0x41 ∧ 0x5A < (0x5B#8).toNat := by decide

/-- For FaultEntryIsPrecise. -/
theorem witness_fault_entry : Block.reset.mode = .config ∧ checks Block.reset ≠ 0 ∧
    ∃ t, exec .start (stateOf Block.reset []) = .next t := ⟨by decide, by decide, _, rfl⟩

/-- For StopClearsTheSession. -/
theorem witness_stop_twice : ∃ t u, exec .stop (stateOf faulted []) = .next t ∧ exec .stop t = .next u := ⟨_, _, rfl, rfl⟩

/-- For RepeatedCommandsAreIdempotent. -/
theorem witness_idempotent : (Instr.pair 0 2).mnemonic ≠ .char ∧ (Instr.pair 0 2).mnemonic ≠ .start ∧
    ∃ t u, exec (.pair 0 2) (stateOf (plugPair 0 1 fixtureG) []) = .next t ∧ exec (.pair 0 2) t = .next u :=
  ⟨by decide, by decide, _, _, rfl, rfl⟩

/-- For RdstAnswersTheStatus. A session under way meets the invariant. -/
theorem witness_running_invariant : running.Inv :=
  ⟨by decide, ⟨by decide, by decide, by decide⟩, by decide, by decide, by decide⟩

/-- For RdstAnswersTheStatus. The fault of P1 meets the invariant. -/
theorem witness_faulted_invariant : faulted.Inv :=
  ⟨by decide, ⟨by decide, by decide, by decide⟩, by decide, by decide, by decide⟩

/-- For RdstAnswersTheStatus. A configuration with a plugboard conflict meets the invariant: the second of `RDST`'s four
answers. -/
theorem witness_conflict_invariant : { fixtureG with pconf := true }.Inv ∧ { fixtureG with pconf := true }.mode = .config :=
  ⟨⟨by decide, ⟨by decide, by decide, by decide⟩, by decide, by decide, by decide⟩, rfl⟩

/-- For StepKeepsTheInvariant. -/
theorem witness_step_keeps_invariant : (stateOf running [.command 0x500041]).toBlock.Inv ∧
    ∃ t, step (stateOf running [.command 0x500041]) = .next t := ⟨witness_running_invariant, step_total _⟩

/-- For RunFreezesTheConfiguration, RunNeverMeetsAFreeValue, EncipherIsAnInvolution. -/
theorem witness_run_freezes : (stateOf running [.command 0x140000]).toBlock.Inv ∧ running.mode = .run ∧
    decode 0x140000 ≠ .ok .stop ∧ ∃ t, step (stateOf running [.command 0x140000]) = .next t :=
  ⟨witness_running_invariant, rfl, by decide, step_total _⟩

/-- For NoOutputUnderAnInvalidConfiguration. `A` with `AB`, fixture G and (25,25,25): the plugboard gives `B`, the core row of
§3.3 gives `Z`, the plugboard leaves it. -/
theorem witness_output : (stateOf running [.command 0x500041]).toBlock.Inv ∧ decode 0x500041 = .ok (.char 0x41) ∧
    ∃ t, step (stateOf running [.command 0x500041]) = .next t ∧ t.responses = [] ++ [0x00005A] ∧ responseCode 0x00005A = 0 :=
  ⟨witness_running_invariant, by decide, _, rfl, by decide, by decide⟩

/-- For NoOutputUnderAnInvalidConfiguration, its second clause: `START` in `RUN`. -/
theorem witness_no_error_in_run : running.mode = .run ∧
    ∃ t, step (stateOf running [.command 0x400000]) = .next t ∧ t.responses = [] ++ [0x400002] := ⟨rfl, _, rfl, by decide⟩

/-- For InverseLookupInvertsAValidTable, RotorBackwardInvertsForward, StackBackwardInvertsForward, RotorCoreIsAnInvolution. -/
theorem witness_tables_valid : running.TablesValid ∧ memRead running.w1 25 = codeOf 9 := by decide

/-- For EncipherRunsTheNineStages. §3.8, stage trace: fixture G, `A` at (3,25,25) runs through `A P N U C A T Y Y`. -/
theorem witness_stages : fixtureG.TablesValid ∧ memRead fixtureG.pm 0 = codeOf 0 ∧
    (memRead fixtureG.w3 (Fin.ofNat 26 (0 + 25))).toNat = (15 + 25) % 26 ∧
    (memRead fixtureG.w2 (Fin.ofNat 26 (15 + 25))).toNat = (13 + 25) % 26 ∧
    (memRead fixtureG.w1 (Fin.ofNat 26 (13 + 3))).toNat = (20 + 3) % 26 ∧ memRead fixtureG.u 20 = codeOf 2 ∧
    (memRead fixtureG.w1 (Fin.ofNat 26 (0 + 3))).toNat = (2 + 3) % 26 ∧
    (memRead fixtureG.w2 (Fin.ofNat 26 (19 + 25))).toNat = (0 + 25) % 26 ∧
    (memRead fixtureG.w3 (Fin.ofNat 26 (24 + 25))).toNat = (19 + 25) % 26 ∧ memRead fixtureG.pm 24 = codeOf 24 := by decide

/-- For RotationByOneConditionalCorrection. -/
theorem witness_rotation_bound : (25#5).toNat < 26 := by decide

/-- For ReflectorValidityPredicates, ReflectorIsAnInvolution. §3.4: a valid reflector, a 26-cycle, and a table that is no
permutation. -/
theorem witness_reflector : (permU running.u = true ∧ involU running.u = true) ∧
    (permU (tableOfString "BCDEFGHIJKLMNOPQRSTUVWXYZA".toList) = true ∧
      involU (tableOfString "BCDEFGHIJKLMNOPQRSTUVWXYZA".toList) = false) ∧ permU Block.reset.u = false := by decide

/-- For PlugboardIsSymmetric, UsedLettersComeInPairs. -/
theorem witness_plugboard : running.PlugboardOk ∧ usedAt running.used 2 = false ∧ memRead running.pm 0 = codeOf 1 :=
  ⟨witness_running_invariant.plugboard, by decide, by decide⟩

theorem distinct_of {pairs : List (Letter × Letter)} (h : pairs.all (fun p => p.1 != p.2) = true) :
    ∀ p ∈ pairs, p.1 ≠ p.2 := fun p hp => by simpa using List.all_eq_true.1 h p hp

/-- For ParseWorksTokenByToken. -/
theorem witness_parse : isBlank ' ' = true ∧ (∀ c ∈ ['a', 'B'], isBlank c = false) ∧ ['A'].length ≠ 2 ∧
    pairOfToken ['a', 'Z'] = some (0, 25) ∧ 0x61 ≤ 'a'.toNat ∧ 'z'.toNat ≤ 0x7A ∧ '`'.toNat < 0x61 ∧ 0x7A < (Char.ofNat 0x7B).toNat :=
  ⟨by decide, by simp [isBlank], by decide, by decide, by decide, by decide, by decide, by decide⟩

/-- For PairsRealiseValidate. -/
theorem witness_pairs : (∀ p ∈ ([(0, 1), (0, 2)] : List (Letter × Letter)), p.1 ≠ p.2) ∧
    (∀ p ∈ ([(0, 1), (24, 25), (1, 0)] : List (Letter × Letter)), p.1 ≠ p.2) ∧
    validate [(0, 1), (0, 2)] = false ∧ validate [(0, 1), (24, 25), (1, 0)] = true ∧ fixtureG.mode = .config ∧
    fixtureG.PlugboardEmpty :=
  ⟨distinct_of (by decide), distinct_of (by decide), by decide, by decide, rfl, rfl, rfl, rfl⟩

/-- For FourteenPairsConflict. Fourteen pairs `AB`, `AC`, ... , no two of them the same. -/
theorem witness_fourteen_pairs : ∃ pairs : List (Letter × Letter), (∀ p ∈ pairs, p.1 ≠ p.2) ∧
    pairs.Pairwise (fun p q => samePair p q = false) ∧ 13 < pairs.length ∧ fixtureG.mode = .config ∧
    fixtureG.PlugboardEmpty :=
  ⟨[(0, 1), (0, 2), (0, 3), (0, 4), (0, 5), (0, 6), (0, 7), (0, 8), (0, 9), (0, 10), (0, 11), (0, 12), (0, 13), (0, 14)],
    distinct_of (by decide), by decide, by decide, rfl, rfl, rfl, rfl⟩

/-- For OdometerClosedForm, OdometerPeriodIsExact. -/
theorem witness_odometer : (⟨25, 25, 25⟩ : Offsets).InRange ∧ (⟨25, 25, 25⟩ : Offsets).value = 17575 ∧
    (⟨0, 0, 0⟩ : Offsets).InRange := by decide

/-- For OutputKeepsPositions. -/
theorem witness_positions : ([0x41#8, 0x20#8] : List Symbol)[1]? = some 0x20#8 ∧
    (runMessage running running.k [0x41#8, 0x20#8]).1[1]? = some 0x20#8 := by decide

/-- For RotorStringLoadsItsTable. -/
theorem witness_wiring_string : "EKMFLGDQVZNTOWYHXUSPAIBRCJ".toList.length = 26 ∧
    "EKMFLGDQVZNTOWYHXUSPAIBRCJ".toList[25]? = some 'J' ∧ "EKM".toList.length ≠ 26 := by decide

/-- Fixture G, offsets -1, 51 and 25, pairs `AB CD`, message `H`. -/
def argsG : TransformArgs where
  w1 := fixtureG.w1
  w2 := fixtureG.w2
  w3 := fixtureG.w3
  u := fixtureG.u
  i1 := -1
  i2 := 51
  i3 := 25
  pairs := [(0, 1), (2, 3)]
  msg := [0x48]

/-- For CommandSequenceComputesTransform, TransformIsReciprocal. §3.8: from (25,25,25) with `AB CD`, `H` gives `F` and leaves
(0,0,0); `AB AC` is `ERROR` 0x20. -/
theorem witness_transform : (∀ p ∈ argsG.pairs, p.1 ≠ p.2) ∧ transform argsG = .ok ([0x46], ⟨0, 0, 0⟩) := by
  have h : checks argsG.config = 0 := by decide
  have hr : runMessage argsG.config argsG.initial argsG.msg = ([0x46], ⟨0, 0, 0⟩) := by decide +kernel
  refine ⟨distinct_of (by decide), ?_⟩
  unfold transform
  rw [if_pos h, hr]

/-- For CommandSequenceComputesTransform. -/
theorem witness_transform_error : (∀ p ∈ ({ argsG with pairs := [(0, 1), (0, 2)] } : TransformArgs).pairs, p.1 ≠ p.2) ∧
    transform { argsG with pairs := [(0, 1), (0, 2)] } = .error 0x20 := by
  have h : checks ({ argsG with pairs := [(0, 1), (0, 2)] } : TransformArgs).config = 0x20 := by decide
  refine ⟨distinct_of (by decide), ?_⟩
  unfold transform
  rw [if_neg (by rw [h]; decide), h]

end Sys2Proof.Tests
end

section
/-! PROOFS. A presented word's step is a function of the word and the block (R4). -/

namespace Sys2Proof.Machine

/-- The block's own answer to a command word: the decoded command's, or the refusal of a word that spells none (R108, R143). -/
def respondWord (w : Word) (b : Block) : Block × Response :=
  match decode w with
  | .ok i => respond i b
  | .error _ => refuse .illegal b

theorem respondWord_ok {w : Word} {i : Instr} (hd : decode w = .ok i) (b : Block) : respondWord w b = respond i b := by
  simp [respondWord, hd]

theorem respondWord_error {w : Word} {e : Illegal} (hd : decode w = .error e) (b : Block) :
    respondWord w b = refuse .illegal b := by
  simp [respondWord, hd]

/-- Every word on the port is answered, and what is answered is `respondWord` of the block: the two ports are only passed on. -/
theorem step_word {s : State} {w : Word} {rest : List HostEvent} (h : s.pending = .command w :: rest) :
    step s = .next (({ s with pending := rest } : State).answer (respondWord w s.toBlock)) := by
  cases hd : decode w with
  | ok i => rw [step_command h hd, respondWord_ok hd]
  | error e => rw [step_illegal h hd, respondWord_error hd]

/-- Settles O10: both steps answer `respondWord` of the one word and the one block. -/
theorem responseDependsOnBlockAndWordAlone : Obligations.ResponseDependsOnBlockAndWordAlone := by
  intro s s' w rest rest' hb hs hs'
  refine ⟨(respondWord w s.toBlock).1, (respondWord w s.toBlock).2.word, step_word hs, ?_⟩
  rw [hb]
  exact step_word hs'

end Sys2Proof.Machine
end

section
/-! PROOFS. The plugboard as a permutation of the letters of order at most 2 (R20, R21). -/

namespace Sys2Proof.Machine

open Equiv (swap)

/-- The plugboard of `b` is the permutation `σ`: `PM` is its table and `USED` marks the letters it moves. -/
structure Block.PlugsAs (b : Block) (σ : Equiv.Perm Letter) : Prop where
  square : σ ^ 2 = 1
  entry : ∀ x, memRead b.pm x = codeOf (σ x)
  used : ∀ x, usedAt b.used x = decide (σ x ≠ x)

/-- R21 (a) to (c) say that the plugboard is such a permutation. -/
theorem plugboardOk_iff (b : Block) : b.PlugboardOk ↔ ∃ σ, b.PlugsAs σ := by
  constructor
  · rintro ⟨hletter, hself, hused⟩
    choose f hf using fun p => exists_codeOf (Nat.lt_succ_of_le (hletter p))
    have hinv : Function.Involutive f := fun p =>
      (codeOf_inj _ _).1 ((hf (f p)).symm.trans (hself p (f p) (hf p)))
    refine ⟨hinv.toPerm, ?_, hf, fun p => ?_⟩
    · ext p
      simp [sq, hinv p]
    · rw [hused p, decide_eq_decide, hf p, ne_eq, codeOf_inj]
      rfl
  · rintro ⟨σ, hsq, hentry, hused⟩
    refine ⟨fun p => ?_, fun p q hpq => ?_, fun p => ?_⟩
    · rw [hentry p, codeOf_toNat]
      omega
    · have hq : σ p = q := (codeOf_inj _ _).1 ((hentry p).symm.trans hpq)
      rw [hentry q, ← hq, ← Equiv.Perm.mul_apply, ← sq, hsq, Equiv.Perm.one_apply]
    · rw [hused p, hentry p]
      simp [codeOf_inj]

/-- An empty plugboard is the identity (R87). -/
theorem plugboardOk_of_empty {b : Block} (hpm : b.pm = identityTable) (hused : b.used = 0) : b.PlugboardOk :=
  (plugboardOk_iff b).2 ⟨1, one_pow 2, fun x => by simp [hpm], fun x => by rw [hused, usedAt_zero]; simp⟩

/-- A letter that is not in use stands for itself. -/
theorem Block.PlugsAs.fixes {b : Block} {σ : Equiv.Perm Letter} (h : b.PlugsAs σ) {x : Letter}
    (hx : usedAt b.used x = false) : σ x = x := by
  simpa [h.used x] using hx

/-- A new pair of two unused letters multiplies the plugboard by their transposition (R91). -/
theorem Block.PlugsAs.newPair {b : Block} {σ : Equiv.Perm Letter} (h : b.PlugsAs σ) {p q : Letter} (hpq : p ≠ q)
    (hp : usedAt b.used p = false) (hq : usedAt b.used q = false) :
    Block.PlugsAs { b with pm := memWrite (memWrite b.pm p (codeOf q)) q (codeOf p),
                           used := markUsed (markUsed b.used p) q } (swap p q * σ) := by
  have hσp : σ p = p := h.fixes hp
  have hσq : σ q = q := h.fixes hq
  have happly : ∀ x, (swap p q * σ) x = if x = q then p else if x = p then q else σ x := by
    intro x
    rw [Equiv.Perm.mul_apply]
    split_ifs with hxq hxp
    · rw [hxq, hσq, Equiv.swap_apply_right]
    · rw [hxp, hσp, Equiv.swap_apply_left]
    · exact Equiv.swap_apply_of_ne_of_ne (fun e => hxp (σ.injective (e.trans hσp.symm)))
        (fun e => hxq (σ.injective (e.trans hσq.symm)))
  have hdisj : (swap p q).Disjoint σ := fun x => by
    by_cases hxp : x = p
    · exact .inr (hxp ▸ hσp)
    · by_cases hxq : x = q
      · exact .inr (hxq ▸ hσq)
      · exact .inl (Equiv.swap_apply_of_ne_of_ne hxp hxq)
  refine ⟨?_, fun x => ?_, fun x => ?_⟩
  · rw [hdisj.commute.mul_pow, h.square, sq, Equiv.swap_mul_self, one_mul]
  · simp only [memRead_memWrite, happly, h.entry]
    split_ifs <;> rfl
  · simp only [usedAt_markUsed, happly, h.used]
    split_ifs with hxq hxp
    · simp [hxq, hpq]
    · simp [hxp, hpq.symm]
    · simp [hxq, hxp]

/-- What `PAIR` can do: nothing, mark a conflict, or connect two unused letters (R91). -/
theorem plugPair_cases (x y : Code) (b : Block) :
    plugPair x y b = b ∨ plugPair x y b = { b with pconf := true } ∨
    ∃ p q : Letter, p ≠ q ∧ usedAt b.used p = false ∧ usedAt b.used q = false ∧
      plugPair x y b = { b with pm := memWrite (memWrite b.pm p (codeOf q)) q (codeOf p),
                                used := markUsed (markUsed b.used p) q } := by
  by_cases hx : 26 ≤ x.toNat
  · exact .inl (plugPair_discard x y b (.inl hx))
  by_cases hy : 26 ≤ y.toNat
  · exact .inl (plugPair_discard x y b (.inr hy))
  obtain ⟨p, rfl⟩ := exists_codeOf (Nat.lt_of_not_le hx)
  obtain ⟨q, rfl⟩ := exists_codeOf (Nat.lt_of_not_le hy)
  rw [plugPair_letters]
  split_ifs with hpq hfree hsame
  · exact .inl rfl
  · exact .inr (.inr ⟨p, q, hpq, hfree.1, hfree.2, rfl⟩)
  · exact .inl rfl
  · exact .inr (.inl rfl)

theorem plugPair_plugboardOk (x y : Code) {b : Block} (h : b.PlugboardOk) : (plugPair x y b).PlugboardOk := by
  rcases plugPair_cases x y b with e | e | ⟨p, q, hpq, hp, hq, e⟩
  · rwa [e]
  · rw [e]
    exact h
  · obtain ⟨σ, hσ⟩ := (plugboardOk_iff b).1 h
    rw [e]
    exact (plugboardOk_iff _).2 ⟨_, hσ.newPair hpq hp hq⟩

/-- The letters in use are the letters the permutation moves. -/
theorem Block.PlugsAs.usedLetters_length {b : Block} {σ : Equiv.Perm Letter} (h : b.PlugsAs σ) :
    (letters.filter (usedAt b.used)).length = σ.support.card := by
  have hnodup : (letters.filter (usedAt b.used)).Nodup := (List.nodup_finRange 26).filter _
  rw [← List.toFinset_card_of_nodup hnodup]
  congr 1
  ext x
  simp [mem_letters, h.used x]

/-- Settles O35: the letters in use are the support of a permutation whose square is 1. -/
theorem usedLettersComeInPairs : Obligations.UsedLettersComeInPairs := by
  intro b hb
  obtain ⟨σ, hσ⟩ := (plugboardOk_iff b).1 hb
  constructor
  · rw [hσ.usedLetters_length, even_iff_two_dvd]
    exact Equiv.Perm.two_dvd_card_support hσ.square
  · exact (List.length_filter_le _ _).trans (List.length_finRange (n := 26)).le

end Sys2Proof.Machine
end

section
/-! PROOFS. What a command can make of the block, and the validations of `START` bit by bit (R109, R113). -/

namespace Sys2Proof.Machine

/-- What a command makes of the block: nothing, or the effect of its own kind in the mode that admits it (R109). -/
inductive BlockMove (b : Block) : Instr → Block → Prop
  | keep (i : Instr) : BlockMove b i b
  | wiring (tbl : WiringTable) (p : Letter) (val : Code) (hm : b.mode = .config) :
      BlockMove b (.wrw tbl (codeOf p) val) (b.setWiring tbl (memWrite (b.wiring tbl) p val))
  | offset (sel : BitVec 2) (imm : BitVec 8) (j : Slot) (hm : b.mode = .config) (hj : slotOf? sel = some j) :
      BlockMove b (.setk sel imm) { b with k := b.k.write j (offsetOperand imm) }
  | plug (x y : Code) (hm : b.mode = .config) : BlockMove b (.pair x y) (plugPair x y b)
  | opened (hm : b.mode = .config) (hc : checks b = 0) : BlockMove b .start { b with mode := .run }
  | raised (hm : b.mode = .config) (hc : checks b ≠ 0) : BlockMove b .start (raise (checks b) b).1
  | advance (x : Letter) (hm : b.mode = .run) : BlockMove b (.char (symbolOf x)) { b with k := stepOffsets b.k }
  | close : BlockMove b .stop (closeSession b)

/-- A refused command keeps the block, so only an admitted command's effect matters. -/
theorem arbitrate_move {i : Instr} {effect : Block → Block × Response} {b : Block}
    (h : admits i.mnemonic b.mode = true → BlockMove b i (effect b).1) : BlockMove b i (arbitrate i effect b).1 := by
  rcases arbitrate_cases i effect b with ⟨-, e⟩ | ⟨-, -, e⟩ | ⟨-, ha, e⟩
  · rw [e]
    exact .keep i
  · rw [e]
    exact .keep i
  · rw [e]
    exact h ha

/-- `CHAR` is admitted in `RUN` only (R109). -/
theorem admits_run {m : Mode} (h : admits .char m = true) : m = .run := by
  cases m with
  | run => rfl
  | config => cases h
  | fault => cases h

/-- Every command makes one of these moves. -/
theorem respond_move (i : Instr) (b : Block) : BlockMove b i (respond i b).1 := by
  cases i with
  | nop => exact arbitrate_move fun _ => .keep _
  | wrw tbl idx val =>
    refine arbitrate_move fun ha => ?_
    unfold writeWiring
    split
    next p hp =>
      obtain rfl := (letterOf?_eq_some idx p).1 hp
      exact .wiring tbl p val (admits_config ha (.inl rfl))
    next => exact .keep _
  | setk sel imm =>
    refine arbitrate_move fun ha => ?_
    unfold setOffset
    split
    next j hj => exact .offset sel imm j (admits_config ha (.inr (.inl rfl))) hj
    next => exact .keep _
  | pair x y => exact arbitrate_move fun ha => .plug x y (admits_config ha (.inr (.inr (.inl rfl))))
  | start =>
    refine arbitrate_move fun ha => ?_
    have hm : b.mode = .config := admits_config ha (.inr (.inr (.inr rfl)))
    by_cases hc : checks b = 0
    · rw [openSession_ok hc]
      exact .opened hm hc
    · rw [openSession_fail hc]
      exact .raised hm hc
  | char sym =>
    refine arbitrate_move fun ha => ?_
    unfold processSymbol
    split
    next x hx =>
      obtain rfl := (letterOfSymbol?_eq_some sym x).1 hx
      exact .advance x (admits_run ha)
    next => exact .keep _
  | stop => exact arbitrate_move fun _ => .close
  | rdk => exact arbitrate_move fun _ => .keep _
  | rdst => exact arbitrate_move fun _ => .keep _

/-- Bit `j` of `Checks()` is one validation's failure (R113). -/
theorem checks_bits (b : Block) :
    (checks b).getLsbD 0 = !validRotor b.w1 ∧ (checks b).getLsbD 1 = !validRotor b.w2 ∧
    (checks b).getLsbD 2 = !validRotor b.w3 ∧ (checks b).getLsbD 3 = !permU b.u ∧
    (checks b).getLsbD 4 = (permU b.u && !involU b.u) ∧ (checks b).getLsbD 5 = b.pconf ∧
    (checks b).getLsbD 6 = false := by
  unfold checks
  generalize validRotor b.w1 = r1, validRotor b.w2 = r2, validRotor b.w3 = r3, permU b.u = perm, involU b.u = invol,
    b.pconf = conflict
  revert r1 r2 r3 perm invol conflict
  decide

/-- No check fails exactly when the configuration is valid (R113). -/
theorem checks_eq_zero_iff (b : Block) : checks b = 0 ↔ b.TablesValid ∧ b.pconf = false := by
  obtain ⟨h0, h1, h2, h3, h4, h5, h6⟩ := checks_bits b
  constructor
  · intro hc
    simp_all [Block.TablesValid, validReflector]
  · rintro ⟨⟨hw1, hw2, hw3, hu⟩, hp⟩
    obtain ⟨hperm, hinvol⟩ := Bool.and_eq_true_iff.1 hu
    apply BitVec.eq_of_getLsbD_eq
    intro j hj
    rw [hw1] at h0
    rw [hw2] at h1
    rw [hw3] at h2
    rw [hperm] at h3
    rw [hperm, hinvol] at h4
    rw [hp] at h5
    interval_cases j
    exacts [h0, h1, h2, h3, h4, h5, h6]

end Sys2Proof.Machine
end

section
/-! PROOFS. The invariant at reset and under every move, what it gives in `RUN`, and the values after reset (R25 to R28). -/

namespace Sys2Proof.Machine

/-- `ERR` is 0 outside `FAULT` (R27). -/
theorem Block.Inv.err_eq_zero {b : Block} (h : b.Inv) (hm : b.mode ≠ .fault) : b.err = 0 :=
  not_not.1 fun he => hm (h.err.1.1 he)

/-- `ERR` = 0 outside `FAULT` meets R27 and R138. -/
theorem errOk_of_zero {b : Block} (he : b.err = 0) (hm : b.mode ≠ .fault) : b.ErrOk := by
  simp [Block.ErrOk, he, hm]

/-- The failed checks as `ERR` in `FAULT` meet R27 and R138: bits 3 and 4 stand for exclusive failures of the reflector. -/
theorem errOk_of_raise {b : Block} (hc : checks b ≠ 0) : (raise (checks b) b).1.ErrOk := by
  obtain ⟨-, -, -, h3, h4, -, h6⟩ := checks_bits b
  refine ⟨⟨fun _ => rfl, fun _ => hc⟩, h6, fun ⟨e3, e4⟩ => ?_⟩
  rw [raise_err, h3] at e3
  rw [raise_err, h4] at e4
  simp_all

/-- In `CONFIG` the invariant asks for the offsets, the plugboard and `ERR` = 0 only. -/
theorem inv_of_config {b : Block} (hm : b.mode = .config) (he : b.err = 0) (hk : b.k.InRange) (hp : b.PlugboardOk) :
    b.Inv where
  offsets := hk
  plugboard := hp
  run hr := by simp [hm] at hr
  err := errOk_of_zero he (by simp [hm])
  fault hf := by simp [hm] at hf

theorem reset_inv : Block.reset.Inv :=
  inv_of_config rfl rfl (by decide) (plugboardOk_of_empty rfl rfl)

theorem normalise_lt (i : Int) : (normalise i).toNat < 26 := by
  have := normalise_toNat i
  omega

theorem bump_lt (k : Code) : (bump k).toNat < 26 := by
  rw [bump_toNat]
  exact Nat.mod_lt _ (by decide)

/-- A normalised integer in one register keeps the range (R104). -/
theorem write_inRange {k : Offsets} (h : k.InRange) (j : Slot) (imm : BitVec 8) :
    (k.write j (offsetOperand imm)).InRange := by
  obtain ⟨h1, h2, h3⟩ := h
  have hv : (offsetOperand imm).toNat < 26 := normalise_lt _
  cases j with
  | one => exact ⟨hv, h2, h3⟩
  | two => exact ⟨h1, hv, h3⟩
  | three => exact ⟨h1, h2, hv⟩

/-- A digit keeps the range whether or not it is bumped. -/
theorem ite_bump_lt (c : Prop) [Decidable c] {k : Code} (h : k.toNat < 26) : (if c then bump k else k).toNat < 26 := by
  split
  · exact bump_lt k
  · exact h

/-- The odometer keeps the range (R100). -/
theorem stepOffsets_inRange {k : Offsets} (h : k.InRange) : (stepOffsets k).InRange := by
  obtain ⟨h1, h2, -⟩ := h
  exact ⟨ite_bump_lt _ h1, ite_bump_lt _ h2, bump_lt _⟩

/-- Every move of a command keeps the invariant. -/
theorem BlockMove.keeps_inv {i : Instr} {b b' : Block} (hmove : BlockMove b i b') (h : b.Inv) : b'.Inv := by
  cases hmove with
  | keep => exact h
  | wiring tbl p val hm =>
    have he : b.err = 0 := h.err_eq_zero (by simp [hm])
    refine inv_of_config (by simp [hm]) (by simp [he]) ?_ ?_
    · simpa only [setWiring_k] using h.offsets
    · simpa only [Block.PlugboardOk, setWiring_pm, setWiring_used] using h.plugboard
  | offset sel imm j hm hj =>
    exact inv_of_config hm (h.err_eq_zero (by simp [hm])) (write_inRange h.offsets j imm) h.plugboard
  | plug x y hm =>
    have he : b.err = 0 := h.err_eq_zero (by simp [hm])
    refine inv_of_config ?_ ?_ ?_ (plugPair_plugboardOk x y h.plugboard)
    · rwa [plugPair_frame]
    · rwa [plugPair_frame]
    · rw [plugPair_frame]
      exact h.offsets
  | opened hm hc =>
    have he : b.err = 0 := h.err_eq_zero (by simp [hm])
    obtain ⟨htables, hpconf⟩ := (checks_eq_zero_iff b).1 hc
    exact
      { offsets := h.offsets
        plugboard := h.plugboard
        run := fun _ => ⟨htables, hpconf, he⟩
        err := errOk_of_zero he (by simp)
        fault := nofun }
  | raised hm hc =>
    exact
      { offsets := h.offsets
        plugboard := h.plugboard
        run := nofun
        err := errOk_of_raise hc
        fault := fun _ => rfl }
  | advance x hm =>
    exact
      { offsets := stepOffsets_inRange h.offsets
        plugboard := h.plugboard
        run := h.run
        err := h.err
        fault := h.fault }
  | close => exact inv_of_config rfl rfl h.offsets (plugboardOk_of_empty rfl rfl)

/-- In `RUN` only `STOP` makes a move that writes more than the offsets (R26). -/
theorem BlockMove.frame_of_run {i : Instr} {b b' : Block} (hmove : BlockMove b i b') (hm : b.mode = .run)
    (hi : i ≠ .stop) : b' = { b with k := b'.k } := by
  cases hmove with
  | keep => rfl
  | advance => rfl
  | close => exact absurd rfl hi
  | wiring _ _ _ hc => simp [hm] at hc
  | offset _ _ _ hc => simp [hm] at hc
  | plug _ _ hc => simp [hm] at hc
  | opened hc => simp [hm] at hc
  | raised hc => simp [hm] at hc

/-- Settles O32: reset meets the invariant and every move of a command keeps it. -/
theorem stepKeepsTheInvariant : Obligations.StepKeepsTheInvariant :=
  fun _ _ hs hstep => step_keeps reset_inv (fun i b hb => (respond_move i b).keeps_inv hb) hstep hs

/-- Settles O31: out of reset the block is in `CONFIG` with an empty plugboard. -/
theorem resetMeetsTheInvariant : Obligations.ResetMeetsTheInvariant := reset_inv

/-- Settles O33: the invariant gives the valid configuration, `respond_move` the frame. -/
theorem runFreezesTheConfiguration : Obligations.RunFreezesTheConfiguration := by
  intro s hs hm
  obtain ⟨htables, hpconf, herr⟩ := hs.run hm
  refine ⟨htables, hpconf, herr, fun t w rest hp hstop hstep => ?_⟩
  rw [step_word hp] at hstep
  cases hstep
  cases hd : decode w with
  | ok i =>
    have hi : i ≠ .stop := fun e => hstop (by rw [hd, e])
    simpa only [answer_toBlock, respondWord_ok hd] using (respond_move i s.toBlock).frame_of_run hm hi
  | error e => simp only [answer_toBlock, respondWord_error hd, refuse_fst]

/-- A code up to 25 is read as a letter (R32). -/
theorem exists_letterOf? {c : Code} (h : c.toNat ≤ 25) : ∃ x : Letter, letterOf? c = some x :=
  ⟨⟨c.toNat, Nat.lt_succ_of_le h⟩, dif_pos _⟩

/-- A valid reflector holds letters only (R82). -/
theorem validReflector_letters {t : Table} (h : validReflector t = true) (p : Letter) : (memRead t p).toNat ≤ 25 := by
  have hperm : permU t = true := (Bool.and_eq_true_iff.1 h).1
  have hletters := (Bool.and_eq_true_iff.1 hperm).1
  exact of_decide_eq_true (all_letters.1 hletters p)

/-- Settles O34: in `RUN` the four tables are valid, and the plugboard holds letters. -/
theorem runNeverMeetsAFreeValue : Obligations.RunNeverMeetsAFreeValue := by
  intro b hb hm
  obtain ⟨⟨hw1, hw2, hw3, hu⟩, -, -⟩ := hb.run hm
  obtain ⟨hl1, hf1⟩ := (validRotor_spec b.w1).1 hw1
  obtain ⟨hl2, hf2⟩ := (validRotor_spec b.w2).1 hw2
  obtain ⟨hl3, hf3⟩ := (validRotor_spec b.w3).1 hw3
  constructor
  · intro p t ht
    apply exists_letterOf?
    simp only [List.mem_cons, List.not_mem_nil, or_false] at ht
    rcases ht with rfl | rfl | rfl | rfl | rfl
    · exact hl1 p
    · exact hl2 p
    · exact hl3 p
    · exact validReflector_letters hu p
    · exact hb.plugboard.1 p
  · intro c t ht
    simp only [List.mem_cons, List.not_mem_nil, or_false] at ht
    rcases ht with rfl | rfl | rfl
    · exact hf1 c
    · exact hf2 c
    · exact hf3 c

/-- Settles O8: a step on a reset event, and a step with nothing presented. -/
theorem stepOnResetAndIdle : Obligations.StepOnResetAndIdle :=
  ⟨fun _ _ hp => step_reset hp, fun _ hp => step_idle hp⟩

/-- Settles O9: the tables entry by entry, the registers by their definition. -/
theorem resetLeavesTheListedValues : Obligations.ResetLeavesTheListedValues :=
  ⟨rfl, rfl, rfl, rfl, memRead_identityTable, rfl, fun p =>
    ⟨memRead_unloadedTable p, memRead_unloadedTable p, memRead_unloadedTable p, memRead_unloadedTable p⟩⟩

/-- The three codes of `MODE` are different (R16). -/
theorem modeCode_inj (m m' : Mode) : m.code = m'.code ↔ m = m' := by
  cases m <;> cases m' <;> decide

/-- Settles O18: `MODE`'s codes are different, and `fault_o` is the comparison of R28. -/
theorem statusOutputsFollowMode : Obligations.StatusOutputsFollowMode := fun b =>
  ⟨modeCode_inj b.mode .config, modeCode_inj b.mode .run, modeCode_inj b.mode .fault, beq_iff_eq⟩

end Sys2Proof.Machine
end

section
/-! PROOFS. A run over presented words: one response each, in their order (R40, R54, R136). -/

namespace Sys2Proof.Machine

/-- Settles O11, by induction on the words: the step on the first word appends its one response. -/
theorem oneResponsePerCommandInOrder : Obligations.OneResponsePerCommandInOrder := by
  intro ws
  induction ws with
  | nil => exact fun s rest hp => ⟨s, [], rfl, (List.append_nil _).symm, rfl, hp⟩
  | cons w ws ih =>
    intro s rest hp
    obtain ⟨t, rs, hrun, hresponses, hlength, hpending⟩ :=
      ih (({ s with pending := ws.map .command ++ rest } : State).answer (respondWord w s.toBlock)) rest rfl
    refine ⟨t, (respondWord w s.toBlock).2.word :: rs, (run_next (step_word hp)).trans hrun, ?_,
      congrArg Nat.succ hlength, hpending⟩
    rw [hresponses, answer_responses, List.append_assoc, List.singleton_append]

end Sys2Proof.Machine
end

section
/-! PROOFS. A command repeated at once: every command but `CHAR` and `START` leaves the block where it left it (R38, R91). -/

namespace Sys2Proof.Machine

/-- Writing one value twice is writing it once (R38). -/
@[simp] theorem memWrite_memWrite (t : Table) (p : Letter) (v : Code) :
    memWrite (memWrite t p v) p v = memWrite t p v :=
  table_ext fun q => by
    simp only [memRead_memWrite]
    split <;> rfl

@[simp] theorem setWiring_setWiring (b : Block) (tbl : WiringTable) (t t' : Table) :
    (b.setWiring tbl t).setWiring tbl t' = b.setWiring tbl t' := by
  cases tbl <;> rfl

@[simp] theorem offsets_write_write (k : Offsets) (i : Slot) (v v' : Code) : (k.write i v).write i v' = k.write i v' := by
  cases i <;> rfl

/-- `PAIR` repeated is the same pair again, or the same conflict (R91). -/
theorem plugPair_plugPair (x y : Code) (b : Block) : plugPair x y (plugPair x y b) = plugPair x y b := by
  by_cases hx : 26 ≤ x.toNat
  · exact plugPair_discard x y _ (.inl hx)
  by_cases hy : 26 ≤ y.toNat
  · exact plugPair_discard x y _ (.inr hy)
  obtain ⟨p, rfl⟩ := exists_codeOf (Nat.lt_of_not_le hx)
  obtain ⟨q, rfl⟩ := exists_codeOf (Nat.lt_of_not_le hy)
  rw [plugPair_letters p q b]
  split_ifs with hpq hfree hsame
  · rw [plugPair_letters, if_pos hpq]
  · have hused : usedAt (markUsed (markUsed b.used p) q) p = true := by simp [usedAt_markUsed]
    have hpartner : memRead (memWrite (memWrite b.pm p (codeOf q)) q (codeOf p)) p = codeOf q := by
      simp [memRead_memWrite, hpq]
    simp [plugPair_letters, hpq, hused, hpartner]
  · rw [plugPair_letters, if_neg hpq, if_neg hfree, if_pos hsame]
  · rw [plugPair_letters, if_neg hpq, if_neg hfree, if_neg hsame]

/-- An effect that, repeated at once, leaves the block where it left it. -/
def Idempotent (effect : Block → Block × Response) : Prop := ∀ b, (effect (effect b).1).1 = (effect b).1

/-- An effect that only answers leaves the block where it is. -/
theorem idempotent_of_keeps {effect : Block → Block × Response} (h : ∀ b, (effect b).1 = b) : Idempotent effect :=
  fun b => h (effect b).1

/-- A command keeps the block (it is refused) or has its effect on it. -/
theorem arbitrate_fst_cases (i : Instr) (effect : Block → Block × Response) (b : Block) :
    (arbitrate i effect b).1 = b ∨ (arbitrate i effect b).1 = (effect b).1 := by
  rcases arbitrate_cases i effect b with ⟨-, e⟩ | ⟨-, -, e⟩ | ⟨-, -, e⟩
  · exact .inl (by rw [e, refuse_fst])
  · exact .inl (by rw [e, refuse_fst])
  · exact .inr (by rw [e])

/-- A command is idempotent when its effect is: a refusal changes nothing, whether of the first or of the second. -/
theorem arbitrate_idempotent (i : Instr) {effect : Block → Block × Response} (h : Idempotent effect) :
    Idempotent (arbitrate i effect) := by
  intro b
  rcases arbitrate_fst_cases i effect b with e | e
  · rw [e, e]
  · rcases arbitrate_fst_cases i effect (arbitrate i effect b).1 with e' | e'
    · exact e'
    · rw [e', e, h b]

theorem writeWiring_idempotent (tbl : WiringTable) (idx val : Code) : Idempotent (writeWiring tbl idx val) := by
  intro b
  unfold writeWiring
  split
  · simp [wiring_setWiring]
  · rfl

theorem setOffset_idempotent (sel : BitVec 2) (imm : BitVec 8) : Idempotent (setOffset sel imm) := by
  intro b
  unfold setOffset
  split
  · simp
  · rfl

theorem pairEffect_idempotent (x y : Code) : Idempotent fun b => respondOk 0 (plugPair x y b) := plugPair_plugPair x y

/-- Each command but `CHAR` and `START` has an idempotent effect: it writes constants, connects a pair or only answers. -/
theorem respond_idempotent {i : Instr} (hchar : i.mnemonic ≠ .char) (hstart : i.mnemonic ≠ .start) :
    Idempotent (respond i) := by
  cases i with
  | nop => exact arbitrate_idempotent .nop (idempotent_of_keeps fun _ => rfl)
  | wrw tbl idx val => exact arbitrate_idempotent (.wrw tbl idx val) (writeWiring_idempotent tbl idx val)
  | setk sel imm => exact arbitrate_idempotent (.setk sel imm) (setOffset_idempotent sel imm)
  | pair x y => exact arbitrate_idempotent (.pair x y) (pairEffect_idempotent x y)
  | start => exact absurd rfl hstart
  | char sym => exact absurd rfl hchar
  | stop => exact arbitrate_idempotent .stop fun _ => rfl
  | rdk => exact arbitrate_idempotent .rdk (idempotent_of_keeps fun _ => rfl)
  | rdst => exact arbitrate_idempotent .rdst (idempotent_of_keeps fun _ => rfl)

/-- Settles O30: both executions are the block's own step, which is idempotent. -/
theorem repeatedCommandsAreIdempotent : Obligations.RepeatedCommandsAreIdempotent := by
  intro i s t u hchar hstart ht hu
  rw [exec_eq_answer] at ht hu
  cases ht
  cases hu
  exact respond_idempotent hchar hstart s.toBlock

end Sys2Proof.Machine
end

section
/-! PROOFS. What the decoder accepts, and the encoder as its inverse (R46 to R53). -/

namespace Sys2Proof

/-- The field tests accept a well-formed command as it stands (R51). -/
theorem checkFields_of_wellFormed {i : Instr} (h : i.wellFormed = true) : checkFields i = .ok i := by
  cases i with
  | wrw tbl idx val => exact if_neg (Nat.not_le.2 (of_decide_eq_true h))
  | setk sel imm => exact if_neg (of_decide_eq_true h)
  | _ => rfl

/-- A word decodes to a command exactly when its opcode's row gives that command, its zero field is zero and the command is
well-formed (R53). -/
theorem decode_eq_ok_iff (w : Word) (i : Instr) :
    decode w = .ok i ↔ rowOf w = some i ∧ w &&& zeroMask (opField w) = 0 ∧ i.wellFormed = true := by
  rcases decode_cases w with ⟨hrow, hd⟩ | ⟨j, hrow, hz, hd⟩ | ⟨j, hrow, hz, hd⟩
  · simp [hrow, hd]
  · rw [hd]
    exact ⟨nofun, fun h => absurd h.2.1 hz⟩
  · rw [hd]
    constructor
    · intro h
      obtain ⟨rfl, hwf⟩ := checkFields_ok h
      exact ⟨hrow, hz, hwf⟩
    · rintro ⟨hi, -, hwf⟩
      obtain rfl : j = i := Option.some.inj (hrow.symm.trans hi)
      exact checkFields_of_wellFormed hwf

/-! ### The encoder's fields -/

theorem opField_encode (i : Instr) : opField (encode i) = i.opcode := by
  cases i with
  | nop => exact Laws.EncodeOpcode.nop
  | wrw tbl idx val => exact Laws.EncodeOpcode.wrw tbl idx val
  | setk sel imm => exact Laws.EncodeOpcode.setk sel imm
  | pair a b => exact Laws.EncodeOpcode.pair a b
  | start => exact Laws.EncodeOpcode.start
  | char sym => exact Laws.EncodeOpcode.char sym
  | stop => exact Laws.EncodeOpcode.stop
  | rdk => exact Laws.EncodeOpcode.rdk
  | rdst => exact Laws.EncodeOpcode.rdst

theorem encode_zeroField (i : Instr) : encode i &&& zeroMask i.opcode = 0 := by
  cases i with
  | nop => exact Laws.EncodeZeroField.nop
  | wrw tbl idx val => exact Laws.EncodeZeroField.wrw tbl idx val
  | setk sel imm => exact Laws.EncodeZeroField.setk sel imm
  | pair a b => exact Laws.EncodeZeroField.pair a b
  | start => exact Laws.EncodeZeroField.start
  | char sym => exact Laws.EncodeZeroField.char sym
  | stop => exact Laws.EncodeZeroField.stop
  | rdk => exact Laws.EncodeZeroField.rdk
  | rdst => exact Laws.EncodeZeroField.rdst

section WrwFields
variable (tbl : WiringTable) (idx val : Code)

@[simp] theorem tblField_encode_wrw : tblField (encode (.wrw tbl idx val)) = tbl.code :=
  field_eq (by rw [encode_wrw_toNat]; omega)

@[simp] theorem idxField_encode_wrw : idxField (encode (.wrw tbl idx val)) = idx :=
  field_eq (by rw [encode_wrw_toNat]; omega)

@[simp] theorem valField_encode_wrw : valField (encode (.wrw tbl idx val)) = val :=
  field_eq (by rw [encode_wrw_toNat]; omega)

end WrwFields

@[simp] theorem selField_encode_setk (sel : BitVec 2) (imm : BitVec 8) : selField (encode (.setk sel imm)) = sel :=
  field_eq (by rw [encode_setk_toNat]; omega)

@[simp] theorem immField_encode_setk (sel : BitVec 2) (imm : BitVec 8) : immField (encode (.setk sel imm)) = imm :=
  field_eq (by rw [encode_setk_toNat]; omega)

@[simp] theorem aField_encode_pair (a b : Code) : aField (encode (.pair a b)) = a :=
  field_eq (by rw [encode_pair_toNat]; omega)

@[simp] theorem bField_encode_pair (a b : Code) : bField (encode (.pair a b)) = b :=
  field_eq (by rw [encode_pair_toNat]; omega)

@[simp] theorem symField_encode_char (sym : Symbol) : symField (encode (.char sym)) = sym :=
  field_eq (by rw [encode_char_toNat]; omega)

/-- The row that an encoded command selects reads its operands back (R48). -/
theorem rowOf_encode (i : Instr) : rowOf (encode i) = some i := by
  rw [rowOf_of (congrArg BitVec.toNat (opField_encode i))]
  cases i with
  | wrw tbl idx val => simp [Instr.opcode, rowAt]
  | setk sel imm => simp [Instr.opcode, rowAt]
  | pair a b => simp [Instr.opcode, rowAt]
  | char sym => simp [Instr.opcode, rowAt]
  | _ => rfl

/-- Settles O1: the encoded command meets the decoder's three tests. -/
theorem decodeOfEncodeIsIdentity : Obligations.DecodeOfEncodeIsIdentity := by
  intro i hwf
  refine (decode_eq_ok_iff _ i).2 ⟨rowOf_encode i, ?_, hwf⟩
  rw [opField_encode]
  exact encode_zeroField i

/-! ### A word from its fields -/

/-- The opcode of a row of the opcode map (R47). -/
def Mnemonic.opcode : Mnemonic → BitVec 4
  | .nop => 0
  | .wrw => 1
  | .setk => 2
  | .pair => 3
  | .start => 4
  | .char => 5
  | .stop => 6
  | .rdk => 7
  | .rdst => 8

/-- The command of a row belongs to the opcode it is the row of (R47). -/
theorem opcode_of_rowAt {n : Nat} {w : Word} {i : Instr} (h : rowAt n w = some i) : i.mnemonic.opcode.toNat = n := by
  unfold rowAt at h
  split at h <;> cases h <;> rfl

theorem opField_of_rowOf {w : Word} {i : Instr} (h : rowOf w = some i) : opField w = i.mnemonic.opcode :=
  BitVec.eq_of_toNat_eq (opcode_of_rowAt h).symm

/-- The lowest bit of the zero field of a row's format (R46). -/
def Mnemonic.zeroStart : Mnemonic → Nat
  | .setk => 8
  | .char => 8
  | _ => 0

/-- The width of the zero field of a row's format (R46). -/
def Mnemonic.zeroWidth : Mnemonic → Nat
  | .wrw => 8
  | .setk => 10
  | .pair => 10
  | .char => 12
  | _ => 20

/-- The decoder's mask of a row is the ones of its zero field (R49, R53). -/
theorem zeroMask_toNat (m : Mnemonic) : (zeroMask m.opcode).toNat = (2 ^ m.zeroWidth - 1) * 2 ^ m.zeroStart := by
  cases m <;> rfl

/-- The word of an opcode without operands (R46). -/
theorem opcode_word_toNat (op : BitVec 4) : (op ++ 0#20 : Word).toNat = op.toNat * 2 ^ 20 := by
  have h : (op ++ 0#20 : Word).toNat = op.toNat * 2 ^ 20 + (0#20).toNat := toNat_append op 0#20
  simpa using h

/-- A command without operands is its opcode's word (R46). -/
theorem encode_plain_toNat {i : Instr} (h : i.mnemonic.zeroWidth = 20) :
    (encode i).toNat = i.mnemonic.opcode.toNat * 2 ^ 20 := by
  cases i with
  | wrw => cases h
  | setk => cases h
  | pair => cases h
  | char => cases h
  | _ => rfl

/-- A row's command with an operand taken from each field of the word is the word, when the zero field is zero (R46, R48). -/
theorem encode_of_rowOf {w : Word} {i : Instr} (hrow : rowOf w = some i) (hz : w &&& zeroMask (opField w) = 0) :
    encode i = w := by
  have hop : opField w = i.mnemonic.opcode := opField_of_rowOf hrow
  have hopNat : w.toNat / 2 ^ 20 % 2 ^ 4 = i.mnemonic.opcode.toNat := by rw [← hop, opField, toNat_field]
  rw [hop, masked_eq_zero _ _ _ _ (zeroMask_toNat _)] at hz
  rw [rowOf_of (congrArg BitVec.toNat hop)] at hrow
  have hw : w.toNat < 2 ^ 24 := w.isLt
  apply BitVec.eq_of_toNat_eq
  cases i <;> simp only [Instr.mnemonic, Mnemonic.zeroStart, Mnemonic.zeroWidth] at hz
  case wrw tbl idx val =>
    cases hrow
    change _ = 1 at hopNat
    rw [encode_wrw_toNat, code_ofCode, tblField, idxField, valField, toNat_field, toNat_field, toNat_field]
    omega
  case setk sel imm =>
    cases hrow
    change _ = 2 at hopNat
    rw [encode_setk_toNat, selField, immField, toNat_field, toNat_field]
    omega
  case pair a b =>
    cases hrow
    change _ = 3 at hopNat
    rw [encode_pair_toNat, aField, bField, toNat_field, toNat_field]
    omega
  case char sym =>
    cases hrow
    change _ = 5 at hopNat
    rw [encode_char_toNat, symField, toNat_field]
    omega
  all_goals
    rw [encode_plain_toNat rfl, ← hopNat]
    omega

/-- Settles O2: the row gives the command of the word's own fields, and the zero field leaves no bit out. -/
theorem encodeOfDecodeIsIdentity : Obligations.EncodeOfDecodeIsIdentity := by
  intro w i hd
  obtain ⟨hrow, hz, hwf⟩ := (decode_eq_ok_iff w i).1 hd
  exact ⟨encode_of_rowOf hrow hz, hwf⟩

/-! ### The rows of the opcode map -/

/-- The further condition of a row (R47): `idx` at most 25 for `WRW`, `sel` not 0 for `SETK`. -/
def FurtherCondition (m : Mnemonic) (w : Word) : Prop :=
  (m = .wrw → (idxField w).toNat ≤ 25) ∧ (m = .setk → selField w ≠ 0)

/-- The command of a row is well-formed when the word meets the row's further condition (R51). -/
theorem wellFormed_iff_of_rowOf {w : Word} {i : Instr} (h : rowOf w = some i) :
    i.wellFormed = true ↔ FurtherCondition i.mnemonic w := by
  unfold rowOf rowAt at h
  split at h <;> cases h <;> simp [FurtherCondition, Instr.wellFormed, Instr.mnemonic, Nat.lt_succ_iff]

/-- Every opcode of the map has a row (R47). -/
theorem exists_rowOf {w : Word} {m : Mnemonic} (h : opField w = m.opcode) : ∃ i, rowOf w = some i ∧ i.mnemonic = m := by
  rw [rowOf_of (congrArg BitVec.toNat h)]
  cases m <;> exact ⟨_, rfl, rfl⟩

/-- The rows' opcodes differ (R47). -/
theorem mnemonic_unique {w : Word} {m m' : Mnemonic} (h : opField w = m.opcode) (h' : opField w = m'.opcode) : m = m' := by
  obtain ⟨i, hrow, rfl⟩ := exists_rowOf h
  obtain ⟨i', hrow', rfl⟩ := exists_rowOf h'
  rw [Option.some.inj (hrow.symm.trans hrow')]

/-- A word decodes to a command of a row exactly when it has the row's opcode, a zero field that is zero, and meets the further
condition (R47, R53). -/
theorem decodes_to_iff (m : Mnemonic) (w : Word) :
    (∃ i, decode w = .ok i ∧ i.mnemonic = m) ↔
      (opField w = m.opcode ∧ w &&& zeroMask m.opcode = 0) ∧ FurtherCondition m w := by
  constructor
  · rintro ⟨i, hd, rfl⟩
    obtain ⟨hrow, hz, hwf⟩ := (decode_eq_ok_iff w i).1 hd
    have hop : opField w = i.mnemonic.opcode := opField_of_rowOf hrow
    exact ⟨⟨hop, hop ▸ hz⟩, (wellFormed_iff_of_rowOf hrow).1 hwf⟩
  · rintro ⟨⟨hop, hz⟩, hcond⟩
    obtain ⟨i, hrow, rfl⟩ := exists_rowOf hop
    exact ⟨i, (decode_eq_ok_iff w i).2 ⟨hrow, hop ▸ hz, (wellFormed_iff_of_rowOf hrow).2 hcond⟩, rfl⟩

/-- The row of a mnemonic: the opcode in bits 23:20, and a mask of the opcode and the zero field (R46, R47). -/
def Mnemonic.row (m : Mnemonic) : OpcodeRow := ⟨m, m.opcode ++ 0#20, 0xF00000 ||| zeroMask m.opcode⟩

theorem row_mem_opcodeMap (m : Mnemonic) : m.row ∈ opcodeMap := by
  cases m <;> decide

theorem eq_row_of_mem {r : OpcodeRow} (h : r ∈ opcodeMap) : r = r.mnemonic.row := by
  revert r
  decide

theorem or_and_absorb {n : Nat} (a z : BitVec n) : (a ||| z) &&& a = a := by
  ext i hi
  rw [BitVec.getElem_and, BitVec.getElem_or]
  cases a[i]
  · exact Bool.and_false _
  · rfl

/-- A test against two masks at once, when the pattern lies in the first, is a test against each. -/
theorem and_or_eq_iff {n : Nat} (w a z p : BitVec n) (ha : p &&& a = p) (hz : p &&& z = 0) :
    w &&& (a ||| z) = p ↔ w &&& a = p ∧ w &&& z = 0 := by
  constructor
  · rintro rfl
    rw [BitVec.and_assoc, or_and_absorb] at ha
    rw [BitVec.and_assoc, BitVec.or_comm, or_and_absorb] at hz
    exact ⟨ha, hz⟩
  · rintro ⟨hwa, hwz⟩
    rw [BitVec.and_or_distrib_left, hwa, hwz]
    exact BitVec.or_zero

/-- The opcode's mask selects the opcode field (R46). -/
theorem and_opcodeMask (w : Word) (op : BitVec 4) : w &&& 0xF00000 = op ++ 0#20 ↔ opField w = op := by
  have hmask : (0xF00000 : Word).toNat = (2 ^ 4 - 1) * 2 ^ 20 := rfl
  rw [← BitVec.toNat_inj, ← BitVec.toNat_inj, BitVec.toNat_and, hmask, and_contiguous, opcode_word_toNat, opField,
    toNat_field]
  simp

/-- `w & mask == match` tests the opcode and the zero field (R47). -/
theorem row_selects_iff (m : Mnemonic) (w : Word) :
    m.row.selects w = true ↔ opField w = m.opcode ∧ w &&& zeroMask m.opcode = 0 := by
  rw [OpcodeRow.selects, beq_iff_eq, ← and_opcodeMask]
  exact and_or_eq_iff w _ _ _ (by cases m <;> rfl) (by cases m <;> rfl)

/-- Settles O3: a row's test is the decoder's test of the opcode and the zero field, and the opcodes differ. -/
theorem decodeFollowsOpcodeMap : Obligations.DecodeFollowsOpcodeMap := by
  have hselects : ∀ (w : Word), ∀ r ∈ opcodeMap, r.selects w = true →
      opField w = r.mnemonic.opcode ∧ w &&& zeroMask r.mnemonic.opcode = 0 := fun w r hr hsel => by
    rw [eq_row_of_mem hr] at hsel
    exact (row_selects_iff _ w).1 hsel
  refine ⟨fun w i hd => ?_, fun w r hr hsel hidx hreg => ?_, fun w r hr r' hr' hsel hsel' => ?_⟩
  · obtain ⟨hfields, -⟩ := (decodes_to_iff i.mnemonic w).1 ⟨i, hd, rfl⟩
    exact ⟨_, row_mem_opcodeMap _, (row_selects_iff _ w).2 hfields, rfl⟩
  · exact (decodes_to_iff r.mnemonic w).2 ⟨hselects w r hr hsel, hidx, hreg⟩
  · have hsame : r.mnemonic = r'.mnemonic := mnemonic_unique (hselects w r hr hsel).1 (hselects w r' hr' hsel').1
    rw [eq_row_of_mem hr, eq_row_of_mem hr', hsame]

/-- Settles O5: nineteen closed runs of the decoder. -/
theorem specWordsDecode : Obligations.SpecWordsDecode := by
  unfold Obligations.SpecWordsDecode
  decide

end Sys2Proof
end

section
/-! PROOFS. The words that spell no command, and the port's answer to them (R49 to R51). -/

namespace Sys2Proof.Machine

/-- A word with a row's opcode is malformed when its zero field is not zero or it fails the further condition (R49, R51). -/
theorem malformedAt_opcode (m : Mnemonic) (w : Word) :
    malformedAt m.opcode.toNat w = false ↔ w &&& zeroMask m.opcode = 0 ∧ FurtherCondition m w := by
  have hzero : w &&& zeroMask m.opcode = 0 ↔ w.extractLsb' m.zeroStart m.zeroWidth = 0 := by
    rw [masked_eq_zero _ _ _ _ (zeroMask_toNat m), ← toNat_field, ← BitVec.toNat_inj]
    rfl
  rw [hzero]
  cases m <;> simp [malformedAt, FurtherCondition, Mnemonic.opcode, Mnemonic.zeroStart, Mnemonic.zeroWidth, idxField, selField,
    Nat.lt_succ_iff, -BitVec.extractLsb'_toNat]

/-- A word with a reserved opcode is malformed (R50). -/
theorem malformedAt_of_no_row {n : Nat} {w : Word} (h : rowAt n w = none) : malformedAt n w = true := by
  rcases Nat.lt_or_ge n 9 with hn | hn
  · interval_cases n <;> cases h
  · obtain ⟨k, rfl⟩ := Nat.exists_eq_add_of_le' hn
    rfl

/-- Exactly the words that are not malformed decode (R49 to R51, R53). -/
theorem malformed_eq_false_iff (w : Word) : malformed w = false ↔ ∃ i, decode w = .ok i := by
  cases hrow : rowOf w with
  | none =>
    have hmal : malformed w = true := malformedAt_of_no_row hrow
    simp [hmal, decode_eq_ok_iff, hrow]
  | some i =>
    have hop : opField w = i.mnemonic.opcode := opField_of_rowOf hrow
    have hmal : malformed w = malformedAt i.mnemonic.opcode.toNat w := by rw [← hop]; rfl
    rw [hmal, malformedAt_opcode, ← hop, ← wellFormed_iff_of_rowOf hrow]
    simp [decode_eq_ok_iff, hrow]

/-- Settles O4: a malformed word does not decode, so the step refuses it. -/
theorem illegalWordsAreRefusedUnchanged : Obligations.IllegalWordsAreRefusedUnchanged := by
  refine ⟨fun s w rest hp hmal => ?_, fun w => (malformed_eq_false_iff w).1⟩
  cases hd : decode w with
  | ok i => simp [(malformed_eq_false_iff w).2 ⟨i, hd⟩] at hmal
  | error e => exact step_illegal hp hd

end Sys2Proof.Machine
end

section
/-! PROOFS. The response words field by field (R54, R55), and the listing syntax (R57). -/

namespace Sys2Proof.Machine

/-- `OK` with no data is the zero word (R55). -/
@[simp] theorem okWord_zero : (Response.ok 0#22).word = 0#24 := rfl

/-- The data of `ERROR` are `ERR` with zeros above it (R55). -/
theorem errorWord_eq (e : BitVec 7) : (Response.error e).word = 2#2 ++ 0#15 ++ e := by
  have hword : (Response.error e).word.toNat = (2#2).toNat * 2 ^ 22 + (e.setWidth 22).toNat := toNat_append _ _
  have hfields : (2#2 ++ 0#15 ++ e).toNat = (2#2 ++ 0#15).toNat * 2 ^ 7 + e.toNat := toNat_append _ _
  rw [BitVec.toNat_setWidth_of_le (by decide)] at hword
  exact BitVec.eq_of_toNat_eq (hword.trans hfields.symm)

/-- Settles O13: the response words are concatenations by definition, `ERROR`'s by `errorWord_eq`. -/
theorem responseWordLayout : Obligations.ResponseWordLayout :=
  ⟨fun _ => rfl, rfl, rfl, errorWord_eq, rfl, rfl⟩

/-- Settles O6: thirteen closed runs of the assembler and the encoder. -/
theorem assemblerSpellsTheExamples : Obligations.AssemblerSpellsTheExamples := by
  unfold Obligations.AssemblerSpellsTheExamples
  decide

end Sys2Proof.Machine
end

section
/-! PROOFS. Loading a wiring table: 26 commands `WRW` and the table they leave (R58, R111). -/

namespace Sys2Proof.Machine

/-! ### The string and its table -/

theorem wiringCode_toNat (c : Char) :
    (wiringCode c).toNat = if 0x41 ≤ c.toNat ∧ c.toNat ≤ 0x5A then c.toNat - 0x41 else 31 := by
  unfold wiringCode letterOfChar?
  split_ifs
  · exact codeOf_toNat _
  · rfl

theorem memRead_tableOfString {s : List Char} {p : Letter} {c : Char} (hlen : s.length = 26) (hc : s[p.val]? = some c) :
    memRead (tableOfString s) p = wiringCode c := by
  obtain ⟨-, rfl⟩ := List.getElem?_eq_some_iff.1 hc
  simp [memRead, tableOfString, Vector.get_eq_getElem, hlen]

theorem memRead_tableOfString_of_length_ne {s : List Char} (p : Letter) (hlen : s.length ≠ 26) :
    memRead (tableOfString s) p = 31 := by
  simp [memRead, tableOfString, Vector.get_eq_getElem, hlen]

/-! ### The commands -/

theorem letters_length : letters.length = 26 := List.length_finRange

@[simp] theorem loadTable_length (tbl : WiringTable) (t : Table) : (loadTable tbl t).length = 26 := by
  rw [loadTable, List.length_map, letters_length]

/-- The command at place `p` writes the entry of `p` (R58: rising order of the index). -/
theorem loadTable_getElem? (tbl : WiringTable) (t : Table) (p : Letter) :
    (loadTable tbl t)[p.val]? = some (.wrw tbl (codeOf p) (memRead t p)) := by
  simp [loadTable, letters]

/-! ### Their run -/

@[simp] theorem setWiring_wiring (b : Block) (tbl : WiringTable) : b.setWiring tbl (b.wiring tbl) = b := by
  cases tbl <;> rfl

theorem wrw_codeOf_wellFormed (tbl : WiringTable) (p : Letter) (v : Code) :
    (Instr.wrw tbl (codeOf p) v).wellFormed = true := by
  simp [Instr.wellFormed]

/-- `WRW` at a letter in `CONFIG` writes that entry and answers `OK` (R111). -/
theorem respond_wrw {b : Block} (hm : b.mode = .config) (tbl : WiringTable) (p : Letter) (v : Code) :
    respond (.wrw tbl (codeOf p) v) b = respondOk 0 (b.setWiring tbl (memWrite (b.wiring tbl) p v)) := by
  have hadm : admits (Instr.wrw tbl (codeOf p) v).mnemonic b.mode = true := by rw [hm]; rfl
  refine (arbitrate_admitted _ (wrw_codeOf_wellFormed tbl p v) hadm).trans ?_
  simp [writeWiring]

/-- The table `u` with the entries at the places `ps` taken from `t`. -/
def overwrite (t : Table) (ps : List Letter) (u : Table) : Table := ps.foldl (fun u p => memWrite u p (memRead t p)) u

theorem memRead_overwrite (t : Table) (ps : List Letter) (u : Table) (q : Letter) :
    memRead (overwrite t ps u) q = if q ∈ ps then memRead t q else memRead u q := by
  induction ps generalizing u with
  | nil => rfl
  | cons p ps ih =>
    refine (ih _).trans ?_
    rw [memRead_memWrite]
    by_cases hps : q ∈ ps
    · simp [hps]
    · by_cases hp : q = p <;> simp [hps, hp]

/-- With every entry taken from `t`, it is `t`. -/
theorem overwrite_letters (t u : Table) : overwrite t letters u = t :=
  table_ext fun q => by rw [memRead_overwrite, if_pos (mem_letters q)]

/-- Executing the writes at the places `ps` overwrites these entries and answers `OK` to each. -/
theorem execAll_writes (tbl : WiringTable) (t : Table) (ps : List Letter) (s : State) (hm : s.mode = .config) :
    execAll (ps.map fun p => .wrw tbl (codeOf p) (memRead t p)) s = { s with
      toBlock := s.toBlock.setWiring tbl (overwrite t ps (s.toBlock.wiring tbl)),
      responses := s.responses ++ List.replicate ps.length 0x000000 } := by
  induction ps generalizing s with
  | nil => simp [execAll, overwrite]
  | cons p ps ih =>
    rw [List.map_cons, execAll, respond_wrw hm, ih _ (by simpa using hm)]
    simp [wiring_setWiring, overwrite, List.replicate_succ]

/-- The 26 commands leave the table in its place, answer `OK` 26 times and change nothing else (R58). -/
theorem run_loadTable (tbl : WiringTable) (t : Table) {s : State} (hm : s.mode = .config) :
    Host.Core.run Sys2Proof.core 26 (s.presentAll (loadTable tbl t)) = .next { s with
      toBlock := s.toBlock.setWiring tbl t, responses := s.responses ++ List.replicate 26 0x000000 } := by
  have hdecode : ∀ i ∈ loadTable tbl t, decode (encode i) = .ok i := by
    intro i hi
    obtain ⟨p, -, rfl⟩ := List.mem_map.1 hi
    exact decodeOfEncodeIsIdentity _ (wrw_codeOf_wellFormed tbl p _)
  have hrun := run_presentAll (loadTable tbl t) s hdecode
  rwa [loadTable_length, loadTable, execAll_writes tbl t letters s hm, overwrite_letters, letters_length] at hrun

/-- Settles O58: each pseudo-instruction is `loadTable` of the string's table. -/
theorem rotorStringLoadsItsTable : Obligations.RotorStringLoadsItsTable := by
  refine ⟨fun s p c => memRead_tableOfString, fun s p => memRead_tableOfString_of_length_ne p, wiringCode_toNat,
    fun str p => ?_, fun str => ?_, fun tbl str s hm => run_loadTable tbl _ hm, fun str s hm => ?_⟩
  · exact ⟨loadTable_getElem? .w1 _ p, loadTable_getElem? .w2 _ p, loadTable_getElem? .w3 _ p, loadTable_getElem? .u _ p⟩
  · exact ⟨loadTable_length .w1 _, loadTable_length .w2 _, loadTable_length .w3 _, loadTable_length .u _⟩
  · exact ⟨run_loadTable .w1 _ hm, run_loadTable .w2 _ hm, run_loadTable .w3 _ hm, run_loadTable .u _ hm⟩

end Sys2Proof.Machine
end

section
/-! PROOFS. `KEYS`: one command for an integer of any size (R60, R104). -/

namespace Sys2Proof.Machine

@[simp] theorem slotOf?_slotSel (i : Slot) : slotOf? (slotSel i) = some i := by
  cases i <;> rfl

/-- The command holds the integer or its residue: in both cases 8 bits congruent to it (R60). -/
theorem keyCommand_eq (i : Slot) (key : Int) :
    ∃ imm : BitVec 8, keyCommand i key = .setk (slotSel i) imm ∧ imm.toInt % 26 = key % 26 := by
  unfold keyCommand
  split
  next hfits => exact ⟨_, rfl, by rw [BitVec.toInt_ofInt_eq_self (by decide) (by omega) (by omega)]⟩
  next => exact ⟨_, rfl, by rw [BitVec.toInt_ofInt_eq_self (by decide) (by omega) (by omega), Int.emod_emod]⟩

/-- `SETK` of a register in `CONFIG` writes it and answers `OK` (R104). -/
theorem respond_setk {b : Block} (hm : b.mode = .config) (i : Slot) (imm : BitVec 8) :
    respond (.setk (slotSel i) imm) b = respondOk 0 { b with k := b.k.write i (offsetOperand imm) } := by
  have hwf : (Instr.setk (slotSel i) imm).wellFormed = true := by cases i <;> rfl
  have hadm : admits (Instr.setk (slotSel i) imm).mnemonic b.mode = true := by rw [hm]; rfl
  refine (arbitrate_admitted _ hwf hadm).trans ?_
  simp [setOffset]

/-- Settles O52: the value written is the residue of the command's 8 bits, which is the integer's. -/
theorem keysWriteTheResidue : Obligations.KeysWriteTheResidue := by
  intro s i key hm
  obtain ⟨imm, hcmd, himm⟩ := keyCommand_eq i key
  refine ⟨offsetOperand imm, (normalise_toNat _).trans himm, ?_⟩
  rw [hcmd, exec_eq_answer, respond_setk hm]
  rfl

end Sys2Proof.Machine
end

section
/-! PROOFS. The rotation as arithmetic on letters (R65 to R67). -/

namespace Sys2Proof.Machine

theorem rotate_val (o : Int) (x : Letter) : ((rotate o x).val : Int) = (x.val + o) % 26 :=
  Int.toNat_of_nonneg (Int.emod_nonneg _ (by decide))

/-- Settles O37: both rotations are sums with the same residue. -/
theorem rotationHasAnInverse : Obligations.RotationHasAnInverse := by
  intro o x
  have hout : ((rotate o x).val : Int) = (x.val + o) % 26 := rotate_val o x
  have hback : ((rotate (-o) (rotate o x)).val : Int) = ((rotate o x).val + -o) % 26 := rotate_val _ _
  apply Fin.ext
  omega

@[simp] theorem rotate_neg_rotate (o : Int) (x : Letter) : rotate (-o) (rotate o x) = x := rotationHasAnInverse o x

@[simp] theorem rotate_rotate_neg (o : Int) (x : Letter) : rotate o (rotate (-o) x) = x := by
  simpa using rotate_neg_rotate (-o) x

/-- Settles O38: a sum or difference of two numbers below 26 is at most one 26 away from its residue. -/
theorem rotationByOneConditionalCorrection : Obligations.RotationByOneConditionalCorrection := by
  intro k x hk
  have hplus : ((rotate k.toNat x).val : Int) = (x.val + k.toNat) % 26 := rotate_val _ _
  have hminus : ((rotate (-(k.toNat : Int)) x).val : Int) = (x.val + -(k.toNat : Int)) % 26 := rotate_val _ _
  constructor
  · split_ifs <;> omega
  · split_ifs <;> omega

end Sys2Proof.Machine
end

section
/-! PROOFS. A valid rotor table as a permutation of the letters, and the rotor stack as a composition of permutations (R68 to R77). -/

namespace Sys2Proof.Machine

/-- The entries of `t` spell the permutation `σ` of the letters. -/
def Spells (t : Table) (σ : Equiv.Perm Letter) : Prop := ∀ p, memRead t p = codeOf (σ p)

/-- Entries that are letters and pairwise different are an injection of the 26 letters, so a permutation. -/
theorem exists_spells_iff (t : Table) :
    (∃ σ, Spells t σ) ↔ (∀ p, (memRead t p).toNat ≤ 25) ∧ ∀ p q, p ≠ q → memRead t p ≠ memRead t q := by
  constructor
  · rintro ⟨σ, hσ⟩
    refine ⟨fun p => ?_, fun p q hpq => ?_⟩
    · rw [hσ p, codeOf_toNat]
      exact Nat.le_of_lt_succ (σ p).isLt
    · rw [hσ p, hσ q, ne_eq, codeOf_inj]
      exact σ.injective.ne hpq
  · rintro ⟨hletter, hne⟩
    choose f hf using fun p => exists_codeOf (Nat.lt_succ_of_le (hletter p))
    have hinj : f.Injective := fun p q hpq => by
      by_contra hpq'
      exact hne p q hpq' (by rw [hf p, hf q, hpq])
    exact ⟨.ofBijective f (Finite.injective_iff_bijective.1 hinj), hf⟩

/-- Of all entries the search for `c` keeps the one at `σ⁻¹ c`. -/
theorem Spells.search {t : Table} {σ : Equiv.Perm Letter} (h : Spells t σ) (c : Letter) :
    (letters.filter fun q => memRead t q == codeOf c) = [σ.symm c] := by
  have htest : ∀ q, (memRead t q == codeOf c) = (q == σ.symm c) := fun q => by
    rw [Bool.eq_iff_iff, beq_iff_eq, beq_iff_eq, h q, codeOf_inj, Equiv.eq_symm_apply]
  have hnodup : letters.Nodup := List.nodup_finRange 26
  simp only [htest]
  rw [List.filter_beq, List.count_eq_one_of_mem hnodup (mem_letters _), List.replicate_one]

/-- A rotor is valid exactly when its table is a permutation: a search that always succeeds makes the entries surjective (R75). -/
theorem validRotor_iff_spells (t : Table) : validRotor t = true ↔ ∃ σ, Spells t σ := by
  rw [validRotor_spec]
  constructor
  · rintro ⟨hletter, hfound⟩
    choose f hf using fun p => exists_codeOf (Nat.lt_succ_of_le (hletter p))
    have hsurj : f.Surjective := fun c => by
      obtain ⟨p, hp⟩ := hfound c
      exact ⟨p, (codeOf_inj _ _).1 ((hf p).symm.trans ((found_iff hp p).2 rfl))⟩
    exact ⟨.ofBijective f (Finite.surjective_iff_bijective.1 hsurj), hf⟩
  · rintro ⟨σ, hσ⟩
    exact ⟨((exists_spells_iff t).1 ⟨σ, hσ⟩).1, fun c => ⟨_, hσ.search c⟩⟩

/-- Settles O39: both sides say that the table is a permutation. -/
theorem validRotorMeansPairwiseDifferent : Obligations.ValidRotorMeansPairwiseDifferent := fun t =>
  (validRotor_iff_spells t).trans (exists_spells_iff t)

theorem Spells.invLookup_eq {t : Table} {σ : Equiv.Perm Letter} (h : Spells t σ) (c : Letter) :
    invLookup t c = σ.symm c := by
  simp [invLookup, h.search c]

/-- Settles O41: the inverse lookup is the inverse permutation. -/
theorem inverseLookupInvertsAValidTable : Obligations.InverseLookupInvertsAValidTable := by
  intro t ht
  obtain ⟨σ, hσ⟩ := (validRotor_iff_spells t).1 ht
  refine ⟨fun p c hpc => ?_, fun c => ?_⟩
  · have hσp : σ p = c := (codeOf_inj _ _).1 ((hσ p).symm.trans hpc)
    rw [hσ.invLookup_eq, ← hσp, Equiv.symm_apply_apply]
  · rw [hσ.invLookup_eq, hσ, Equiv.apply_symm_apply]

theorem Spells.rotorFwd_eq {t : Table} {σ : Equiv.Perm Letter} (h : Spells t σ) (k : Code) (x : Letter) :
    rotorFwd t k x = rotate (-(k.toNat : Int)) (σ (rotate k.toNat x)) := by
  rw [rotorFwd, h, letterOf_codeOf]

theorem Spells.rotorBwd_eq {t : Table} {σ : Equiv.Perm Letter} (h : Spells t σ) (k : Code) (y : Letter) :
    rotorBwd t k y = rotate (-(k.toNat : Int)) (σ.symm (rotate k.toNat y)) := by
  rw [rotorBwd, h.invLookup_eq]

/-- Settles O42: the two passes conjugate `σ` and `σ⁻¹` by the same rotation. -/
theorem rotorBackwardInvertsForward : Obligations.RotorBackwardInvertsForward := by
  intro t k x ht
  obtain ⟨σ, hσ⟩ := (validRotor_iff_spells t).1 ht
  simp [hσ.rotorFwd_eq, hσ.rotorBwd_eq]

theorem rotorBwd_rotorFwd {t : Table} (ht : validRotor t = true) (k : Code) (x : Letter) :
    rotorBwd t k (rotorFwd t k x) = x := (rotorBackwardInvertsForward t k x ht).1

theorem rotorFwd_rotorBwd {t : Table} (ht : validRotor t = true) (k : Code) (y : Letter) :
    rotorFwd t k (rotorBwd t k y) = y := (rotorBackwardInvertsForward t k y ht).2

/-- Settles O43: the two passes meet the rotors in opposite order, so neighbours cancel from the inside. -/
theorem stackBackwardInvertsForward : Obligations.StackBackwardInvertsForward := by
  intro b k x hw1 hw2 hw3
  constructor
  · rw [stackBwd, stackFwd, rotorBwd_rotorFwd hw1, rotorBwd_rotorFwd hw2, rotorBwd_rotorFwd hw3]
  · rw [stackBwd, stackFwd, rotorFwd_rotorBwd hw3, rotorFwd_rotorBwd hw2, rotorFwd_rotorBwd hw1]

/-- The reflector's second validation: the letters stand in pairs of two different letters that hold each other (R82). -/
theorem involU_spec (t : Table) :
    involU t = true ↔ ∀ p, ∃ q, memRead t p = codeOf q ∧ memRead t q = codeOf p ∧ q ≠ p := by
  unfold involU
  rw [all_letters]
  refine forall_congr' fun p => ?_
  constructor
  · intro h
    split at h
    next q hq =>
      obtain ⟨hback, hne⟩ := Bool.and_eq_true_iff.1 h
      exact ⟨q, (letterOf?_eq_some _ _).1 hq, beq_iff_eq.1 hback, bne_iff_ne.1 hne⟩
    next => cases h
  · rintro ⟨q, hq, hback, hne⟩
    simp [hq, hback, hne]

/-- A valid reflector exchanges letters and fixes none. -/
theorem reflect_spec {b : Block} (hu : validReflector b.u = true) (x : Letter) :
    reflect b (reflect b x) = x ∧ reflect b x ≠ x := by
  obtain ⟨y, hy, hback, hne⟩ := (involU_spec b.u).1 (Bool.and_eq_true_iff.1 hu).2 x
  simp [reflect, hy, hback, hne]

/-- Settles O44: the core conjugates the reflector by the stack, and a conjugate keeps both properties. -/
theorem rotorCoreIsAnInvolution : Obligations.RotorCoreIsAnInvolution := by
  rintro b k x ⟨hw1, hw2, hw3, hu⟩
  have hcancel := fun y => stackBackwardInvertsForward b k y hw1 hw2 hw3
  obtain ⟨hinvol, hmoves⟩ := reflect_spec hu (stackFwd b k x)
  constructor
  · calc rotorCore b k (rotorCore b k x)
        = stackBwd b k (reflect b (reflect b (stackFwd b k x))) := by rw [rotorCore, rotorCore, (hcancel _).2]
      _ = x := by rw [hinvol, (hcancel x).1]
  · intro hfix
    have hfwd : stackFwd b k (rotorCore b k x) = reflect b (stackFwd b k x) := (hcancel _).2
    exact hmoves (by rw [← hfwd, hfix])

end Sys2Proof.Machine
end

section
/-! PROOFS. The two validations of the reflector as laws of its table, and the reflector they admit (R82, R83). -/

namespace Sys2Proof.Machine

/-- The reflector's first validation: letters, pairwise different (R82). -/
theorem permU_spec (t : Table) :
    permU t = true ↔ (∀ p, (memRead t p).toNat ≤ 25) ∧ ∀ p q, p ≠ q → memRead t p ≠ memRead t q := by
  unfold permU
  rw [Bool.and_eq_true, all_letters, all_letters]
  simp only [all_letters, decide_eq_true_eq, Bool.or_eq_true, beq_iff_eq, bne_iff_ne, or_iff_not_imp_left, ne_eq]

/-- Where the entries are letters, the pairs of `involU_spec` are `U[U[p]] = p` and `U[p] != p`, read off every entry (R82). -/
theorem involU_iff_of_permU {t : Table} (hperm : permU t = true) :
    involU t = true ↔ ∀ p q, memRead t p = codeOf q → memRead t q = codeOf p ∧ memRead t p ≠ codeOf p := by
  rw [involU_spec]
  refine forall_congr' fun p => ?_
  obtain ⟨r, hr⟩ := exists_codeOf (Nat.lt_succ_of_le (((permU_spec t).1 hperm).1 p))
  simp only [hr, codeOf_inj, ne_eq, exists_eq_left', forall_eq']

/-- Settles O40: the laws of the two predicates, and bits 3 and 4 of `checks_bits` where they hold or fail. -/
theorem reflectorValidityPredicates : Obligations.ReflectorValidityPredicates := by
  refine ⟨permU_spec, fun _ => involU_iff_of_permU, fun b => ?_⟩
  obtain ⟨-, -, -, h3, h4, -, -⟩ := checks_bits b
  rw [h3, h4]
  refine ⟨Bool.and_eq_true_iff, fun hperm => ?_, fun hperm hinvol => ?_, fun hperm hinvol => ?_⟩
  · simp [hperm]
  · simp [hperm, hinvol]
  · simp [hperm, hinvol]

/-- Settles O45: the letters stand in pairs that the reflector exchanges. -/
theorem reflectorIsAnInvolution : Obligations.ReflectorIsAnInvolution := fun _ x hu => reflect_spec hu x

end Sys2Proof.Machine
end

section
/-! PROOFS. The command `PAIR`: its word, its admission and its branches (R91). -/

namespace Sys2Proof.Machine

/-- The word of `PAIR` is the one with the opcode 3 and zeros in bits 9:0 (R47). -/
theorem decode_pairWord {w : Word} (h : w &&& 0xF003FF = 0x300000) : decode w = .ok (.pair (aField w) (bField w)) := by
  obtain ⟨hop, hz⟩ := (row_selects_iff .pair w).1 (beq_iff_eq.2 h)
  exact (decode_eq_ok_iff w _).2 ⟨rowOf_of (congrArg BitVec.toNat hop), hop ▸ hz, rfl⟩

theorem arbitrate_wrongMode {i : Instr} {b : Block} (effect : Block → Block × Response) (hw : i.wellFormed = true)
    (ha : admits i.mnemonic b.mode = false) : arbitrate i effect b = refuse .wrongMode b := by
  simp [arbitrate, hw, ha]

/-- `PAIR` in `CONFIG` has its effect on the plugboard and answers `OK` (R91). -/
theorem respond_pair {b : Block} (hm : b.mode = .config) (x y : Code) :
    respond (.pair x y) b = respondOk 0 (plugPair x y b) := by
  have hadm : admits (Instr.pair x y).mnemonic b.mode = true := by rw [hm]; rfl
  exact arbitrate_admitted (fun blk => respondOk 0 (plugPair x y blk)) rfl hadm

/-- `PAIR` outside `CONFIG` is refused (R109). -/
theorem respond_pair_wrongMode {b : Block} (hm : b.mode ≠ .config) (x y : Code) :
    respond (.pair x y) b = refuse .wrongMode b := by
  have hadm : admits (Instr.pair x y).mnemonic b.mode = false :=
    Bool.eq_false_iff.2 fun ha => hm (admits_config ha (.inr (.inr (.inl rfl))))
  exact arbitrate_wrongMode (fun blk => respondOk 0 (plugPair x y blk)) rfl hadm

theorem exec_pair {s : State} (hm : s.mode = .config) (x y : Code) :
    exec (.pair x y) s =
      .next { s with toBlock := plugPair x y s.toBlock, responses := s.responses ++ [0x000000] } := by
  rw [exec_eq_answer, respond_pair hm]
  rfl

/-- A pair of a code with itself is discarded, whether or not the code is a letter (R91). -/
theorem plugPair_self (x : Code) (b : Block) : plugPair x x b = b := by
  by_cases hx : 26 ≤ x.toNat
  · exact plugPair_discard x x b (.inl hx)
  · obtain ⟨p, rfl⟩ := exists_codeOf (Nat.lt_of_not_le hx)
    rw [plugPair_letters, if_pos rfl]

/-- Settles O22: one branch of `plugPair` for each clause in `CONFIG`, and the refusal in another mode. -/
theorem pairTakesOneOfFourBranches : Obligations.PairTakesOneOfFourBranches := by
  refine ⟨fun w => decode_pairWord, fun s a b hm hdiscard => ?_, fun s p q hm hpq hp hq => ?_,
    fun s p q hm hpq hp hpartner => ?_, fun s p q hm hpq hinUse hother => ?_, fun s a b hm => ?_⟩
  · have hkeep : plugPair a b s.toBlock = s.toBlock := by
      rcases hdiscard with ha | hb | rfl
      · exact plugPair_discard a b _ (.inl ha)
      · exact plugPair_discard a b _ (.inr hb)
      · exact plugPair_self a _
    rw [exec_pair hm, hkeep]
  · refine ⟨_, exec_pair hm _ _, ?_⟩
    rw [plugPair_letters, if_neg hpq, if_pos ⟨hp, hq⟩]
    refine ⟨fun x => ?_, fun x => ?_, rfl, rfl, rfl⟩
    · by_cases hx : x = p
      · simp [memRead_memWrite, hx, hpq]
      · simp [memRead_memWrite, hx]
    · simp [usedAt_markUsed, Bool.beq_eq_decide_eq]
  · rw [exec_pair hm, plugPair_letters, if_neg hpq, if_neg (by simp [hp]), if_pos ⟨hp, hpartner⟩]
  · have hnotNew : ¬ (usedAt s.used p = false ∧ usedAt s.used q = false) := fun ⟨hp, hq⟩ => by simp [hp, hq] at hinUse
    rw [exec_pair hm, plugPair_letters, if_neg hpq, if_neg hnotNew, if_neg hother]
  · rw [exec_eq_answer, respond_pair_wrongMode hm]
    rfl

end Sys2Proof.Machine
end

section
/-! PROOFS. `PlugApply` as the plugboard's permutation (R93, R94). -/

namespace Sys2Proof.Machine

theorem Block.PlugsAs.plugApply_eq {b : Block} {σ : Equiv.Perm Letter} (h : b.PlugsAs σ) (x : Letter) :
    plugApply b x = σ x := by
  rw [plugApply, h.entry, letterOf_codeOf]

/-- Partners hold each other: the permutation is its own inverse. -/
theorem Block.PlugsAs.apply_apply {b : Block} {σ : Equiv.Perm Letter} (h : b.PlugsAs σ) (x : Letter) : σ (σ x) = x := by
  rw [← Equiv.Perm.mul_apply, ← sq, h.square, Equiv.Perm.one_apply]

/-- Settles O46: `PlugApply` is a permutation whose square is 1. -/
theorem plugboardIsSymmetric : Obligations.PlugboardIsSymmetric := by
  intro b x hb
  obtain ⟨σ, hσ⟩ := (plugboardOk_iff b).1 hb
  simp only [hσ.plugApply_eq]
  refine ⟨hσ.apply_apply x, hσ.fixes, fun y hy => ?_⟩
  have hxy : σ x = y := (codeOf_inj _ _).1 ((hσ.entry x).symm.trans hy)
  exact ⟨hxy, hxy ▸ hσ.apply_apply x⟩

end Sys2Proof.Machine
end

section
/-! PROOFS. `Parse`: the tokens between the blanks, and the pair that a token gives (R88). -/

namespace Sys2Proof.Machine

/-! ### Tokens -/

/-- A blank ends the run in progress. -/
theorem tokensFrom_append_blank {c : Char} (hc : isBlank c = true) (cur s t : List Char) :
    tokensFrom cur (s ++ c :: t) = tokensFrom cur s ++ tokens t := by
  induction s generalizing cur with
  | nil => cases cur <;> simp [tokensFrom, hc, tokens]
  | cons d s ih =>
    cases hd : isBlank d with
    | true => cases cur <;> simp [tokensFrom, hd, ih]
    | false => simp [tokensFrom, hd, ih]

/-- Without a blank the run in progress is the only token, unless it is empty. -/
theorem tokensFrom_of_noBlank {w : List Char} (hw : ∀ c ∈ w, isBlank c = false) (cur : List Char) :
    tokensFrom cur w = if cur.reverse ++ w = [] then [] else [cur.reverse ++ w] := by
  induction w generalizing cur with
  | nil => cases cur <;> simp [tokensFrom]
  | cons c w ih =>
    obtain ⟨hc, hw⟩ := List.forall_mem_cons.1 hw
    simp [tokensFrom, hc, ih hw]

theorem parse_append_blank {c : Char} (hc : isBlank c = true) (s t : List Char) :
    parse (s ++ c :: t) = parse s ++ parse t := by
  rw [parse, tokens, tokensFrom_append_blank hc, List.filterMap_append]
  rfl

/-- The empty token, which `tokens` leaves out, gives no pair either. -/
theorem parse_of_noBlank {w : List Char} (hw : ∀ c ∈ w, isBlank c = false) : parse w = (pairOfToken w).toList := by
  rw [parse, tokens, tokensFrom_of_noBlank hw]
  split_ifs with hempty
  · obtain rfl : w = [] := hempty
    rfl
  · cases h : pairOfToken w <;> simp [h]

/-! ### The pair of a token -/

theorem pairOfToken_of_length_ne {w : List Char} (hw : w.length ≠ 2) : pairOfToken w = none := by
  unfold pairOfToken
  split
  next c d h => exact absurd (by simpa using congrArg List.length h) hw
  next => rfl

theorem letterOfChar?_eq_some (c : Char) (x : Letter) : letterOfChar? c = some x ↔ c.toNat = 0x41 + x.val := by
  have hx := x.isLt
  unfold letterOfChar?
  split_ifs with hletter
  · rw [Option.some.injEq, Fin.ext_iff, Fin.val_mk]
    omega
  · rw [false_iff]
    omega

theorem pairOfToken_eq_some (c d : Char) (a b : Letter) :
    pairOfToken [c, d] = some (a, b) ↔
      upcase c ≠ upcase d ∧ letterOfChar? (upcase c) = some a ∧ letterOfChar? (upcase d) = some b := by
  by_cases hcd : upcase c = upcase d
  · simp [pairOfToken, hcd]
  · cases hc : letterOfChar? (upcase c) <;> cases hd : letterOfChar? (upcase d) <;> simp [pairOfToken, hcd, hc, hd]

/-! ### Characters -/

theorem upcase_toNat {c : Char} (hlow : 0x61 ≤ c.toNat) (hhigh : c.toNat ≤ 0x7A) :
    (upcase c).toNat = c.toNat - 0x20 := by
  have hvalid : (c.toNat - 0x20).isValidChar := .inl (by omega)
  rw [upcase, if_pos ⟨hlow, hhigh⟩, Char.toNat_ofNat, if_pos hvalid]

theorem upcase_of_not_lower {c : Char} (h : c.toNat < 0x61 ∨ 0x7A < c.toNat) : upcase c = c :=
  if_neg (by omega)

theorem isBlank_iff (c : Char) :
    isBlank c = true ↔ c.toNat = 0x20 ∨ c.toNat = 0x09 ∨ c.toNat = 0x0A ∨ c.toNat = 0x0D := by
  simp only [isBlank, Bool.or_eq_true, beq_iff_eq, ← Char.toNat_inj, or_assoc]
  rfl

/-- Settles O47: the clauses are the laws of `tokens`, of `pairOfToken` and of the two functions of a character. -/
theorem parseWorksTokenByToken : Obligations.ParseWorksTokenByToken := by
  refine ⟨fun s t c hc => parse_append_blank hc s t, fun w => parse_of_noBlank, fun w => pairOfToken_of_length_ne,
    fun c d a b => ?_, fun c => upcase_toNat, fun c => upcase_of_not_lower, isBlank_iff⟩
  rw [pairOfToken_eq_some, letterOfChar?_eq_some, letterOfChar?_eq_some]

end Sys2Proof.Machine
end

section
/-! PROOFS. A list of pairs as a list of unordered pairs: `Validate` says that no letter is in two of them (R89, R97). -/

namespace Sys2Proof.Machine

/-- The unordered pairs of a list (R89: `(a, b)` and `(b, a)` are the same pair). -/
def edges (L : List (Letter × Letter)) : List (Sym2 Letter) := L.map fun p => s(p.1, p.2)

@[simp] theorem edges_append (L M : List (Letter × Letter)) : edges (L ++ M) = edges L ++ edges M := List.map_append

theorem mem_edges (L : List (Letter × Letter)) (x y : Letter) : s(x, y) ∈ edges L ↔ (x, y) ∈ L ∨ (y, x) ∈ L := by
  simp only [edges, List.mem_map, Sym2.eq_iff, Prod.exists]
  constructor
  · rintro ⟨a, b, hab, ⟨rfl, rfl⟩ | ⟨rfl, rfl⟩⟩
    · exact .inl hab
    · exact .inr hab
  · rintro (h | h)
    · exact ⟨x, y, h, .inl ⟨rfl, rfl⟩⟩
    · exact ⟨y, x, h, .inr ⟨rfl, rfl⟩⟩

theorem samePair_iff (p q : Letter × Letter) : samePair p q = true ↔ s(p.1, p.2) = s(q.1, q.2) := by
  simp [samePair, Prod.ext_iff]

theorem shareLetter_iff (p q : Letter × Letter) : shareLetter p q = true ↔ ∃ x ∈ s(p.1, p.2), x ∈ s(q.1, q.2) := by
  simp [shareLetter, Sym2.mem_iff, or_assoc]

/-- A list is valid exactly when a letter has at most one partner in it (R89). -/
theorem validate_iff (L : List (Letter × Letter)) :
    validate L = true ↔ ∀ x y z, s(x, y) ∈ edges L → s(x, z) ∈ edges L → y = z := by
  have hedges : validate L = true ↔ ∀ e ∈ edges L, ∀ f ∈ edges L, (∃ x ∈ e, x ∈ f) → e = f := by
    simp only [validate, edges, List.all_eq_true, List.forall_mem_map, Bool.or_eq_true, Bool.not_eq_true',
      ← Bool.not_eq_true, samePair_iff, shareLetter_iff, or_iff_not_imp_right, not_not]
  rw [hedges]
  constructor
  · intro h x y z hy hz
    exact Sym2.congr_right.1 (h _ hy _ hz ⟨x, Sym2.mem_mk_left x y, Sym2.mem_mk_left x z⟩)
  · rintro h e he f hf ⟨x, ⟨y, rfl⟩, ⟨z, rfl⟩⟩
    rw [h x y z he hf]

/-- A pair too many does not make a list valid. -/
theorem validate_append_eq_false {L : List (Letter × Letter)} (h : validate L = false) (M : List (Letter × Letter)) :
    validate (L ++ M) = false := by
  rw [← Bool.not_eq_true, validate_iff] at h ⊢
  exact fun hall => h fun x y z hy hz => hall x y z (by simp [hy]) (by simp [hz])

/-- In a valid list pairs of different letters, no two of them the same, take two letters each (R97). -/
theorem two_mul_length_le_of_validate {L : List (Letter × Letter)} (hne : ∀ p ∈ L, p.1 ≠ p.2)
    (hdiff : L.Pairwise fun p q => samePair p q = false) (hvalid : validate L = true) : 2 * L.length ≤ 26 := by
  have hdisjoint : L.Pairwise (Function.onFun List.Disjoint fun p => [p.1, p.2]) := by
    refine hdiff.imp_of_mem fun {p q} hp hq hpq => ?_
    have hshare : shareLetter p q = false := by
      simpa [hpq] using List.all_eq_true.1 (List.all_eq_true.1 hvalid p hp) q hq
    intro x hxp hxq
    exact absurd ((shareLetter_iff p q).2 ⟨x, by simpa using hxp, by simpa using hxq⟩) (by simp [hshare])
  have hnodup : (L.flatMap fun p => [p.1, p.2]).Nodup :=
    List.nodup_flatMap.2 ⟨fun p hp => by simpa using hne p hp, hdisjoint⟩
  simpa [List.length_flatMap, mul_comm] using hnodup.length_le_card

end Sys2Proof.Machine
end

section
/-! PROOFS. The `PAIR` commands of a list from the empty plugboard: either the plugboard holds the list's pairs, or `PCONF` is set and
the list is invalid (R92). -/

namespace Sys2Proof.Machine

theorem pairedIn_iff (pm : Table) (p q : Letter) : pairedIn pm p q = true ↔ memRead pm p = codeOf q ∧ p ≠ q := by
  simp [pairedIn]

/-- A letter has one partner at most. -/
theorem pairedIn_unique {pm : Table} {x y z : Letter} (hy : pairedIn pm x y = true) (hz : pairedIn pm x z = true) :
    y = z :=
  (codeOf_inj y z).1 (((pairedIn_iff pm x y).1 hy).1.symm.trans ((pairedIn_iff pm x z).1 hz).1)

/-- `USED` marks the letters that have a partner (R21). -/
theorem usedAt_iff_pairedIn {b : Block} (hb : b.PlugboardOk) (x : Letter) :
    usedAt b.used x = true ↔ ∃ y, pairedIn b.pm x y = true := by
  obtain ⟨σ, hσ⟩ := (plugboardOk_iff b).1 hb
  simp only [hσ.used, decide_eq_true_eq, pairedIn_iff, hσ.entry, codeOf_inj]
  exact ⟨fun hx => ⟨σ x, rfl, hx.symm⟩, fun ⟨y, hy, hne⟩ => hy ▸ hne.symm⟩

/-- The plugboard holds exactly the unordered pairs of the list (R22, R92). -/
structure Block.Realises (b : Block) (L : List (Letter × Letter)) : Prop where
  plugboard : b.PlugboardOk
  pairs : ∀ x y, pairedIn b.pm x y = true ↔ s(x, y) ∈ edges L

/-- What `PCONF` reports of the list of the pairs sent so far (R92). -/
inductive Block.Reports (b : Block) (L : List (Letter × Letter)) : Prop
  | pairs (hconf : b.pconf = false) (h : b.Realises L)
  | conflict (hconf : b.pconf = true) (h : validate L = false)

theorem Block.Realises.validate {b : Block} {L : List (Letter × Letter)} (h : b.Realises L) : validate L = true :=
  (validate_iff L).2 fun x y z hy hz => pairedIn_unique ((h.pairs x y).2 hy) ((h.pairs x z).2 hz)

theorem Block.Reports.pconf_eq {b : Block} {L : List (Letter × Letter)} (h : b.Reports L) : b.pconf = !validate L := by
  cases h with
  | pairs hconf h => rw [hconf, h.validate]; rfl
  | conflict hconf h => rw [hconf, h]; rfl

theorem reports_nil {b : Block} (h : b.PlugboardEmpty) : b.Reports [] := by
  obtain ⟨hpm, hused, hconf⟩ := h
  exact .pairs hconf ⟨plugboardOk_of_empty hpm hused, fun x y => by simp [hpm, pairedIn_iff, codeOf_inj, edges]⟩

/-- A letter that had no partner and whose entry is now `r'` has the partner `r'`. -/
theorem pairedIn_of_newEntry {pm pm' : Table} {r r' : Letter} (hne : r ≠ r') (hread : memRead pm' r = codeOf r') {y : Letter}
    (halone : pairedIn pm r y ≠ true) : pairedIn pm' r y = true ↔ pairedIn pm r y = true ∨ s(r, y) = s(r, r') := by
  rw [pairedIn_iff, hread, codeOf_inj, Sym2.congr_right, or_iff_right halone]
  exact ⟨fun h => h.1.symm, fun h => ⟨h.symm, h ▸ hne⟩⟩

/-- The partners after a new pair: the old ones, and the two letters of the pair each other's (R91). -/
theorem pairedIn_newPair {b : Block} (hb : b.PlugboardOk) {p q : Letter} (hpq : p ≠ q) (hp : usedAt b.used p = false)
    (hq : usedAt b.used q = false) (x y : Letter) :
    pairedIn (memWrite (memWrite b.pm p (codeOf q)) q (codeOf p)) x y = true ↔
      pairedIn b.pm x y = true ∨ s(x, y) = s(p, q) := by
  have halone : ∀ r, usedAt b.used r = false → pairedIn b.pm r y ≠ true := fun r hr hy =>
    Bool.eq_false_iff.1 hr ((usedAt_iff_pairedIn hb r).2 ⟨y, hy⟩)
  by_cases hxq : x = q
  · subst hxq
    rw [Sym2.eq_swap (a := p)]
    exact pairedIn_of_newEntry hpq.symm (by simp [memRead_memWrite]) (halone x hq)
  by_cases hxp : x = p
  · subst hxp
    exact pairedIn_of_newEntry hpq (by simp [memRead_memWrite, hpq]) (halone x hp)
  · simp [pairedIn_iff, memRead_memWrite, hxq, hxp]

/-- `PAIR` never takes a conflict back (R91). -/
theorem plugPair_pconf {b : Block} (h : b.pconf = true) (x y : Code) : (plugPair x y b).pconf = true := by
  rcases plugPair_cases x y b with e | e | ⟨p, q, -, -, -, e⟩ <;> rw [e]
  all_goals exact h

/-- `PAIR` on a plugboard that holds the list's pairs: a new pair and the same pair again make it hold the longer list's; otherwise
one of the two letters gets a second partner in the list (R91, R92). -/
theorem Block.Realises.plugPair {b : Block} {L : List (Letter × Letter)} (h : b.Realises L) (hconf : b.pconf = false)
    {p q : Letter} (hpq : p ≠ q) : (plugPair (codeOf p) (codeOf q) b).Reports (L ++ [(p, q)]) := by
  have hok := plugPair_plugboardOk (codeOf p) (codeOf q) h.plugboard
  rw [plugPair_letters, if_neg hpq] at hok ⊢
  split_ifs at hok ⊢ with hfree hsame
  · obtain ⟨hp, hq⟩ := hfree
    exact .pairs hconf ⟨hok, fun x y => by simp [pairedIn_newPair h.plugboard hpq hp hq, h.pairs, edges]⟩
  · have hmem : s(p, q) ∈ edges L := (h.pairs p q).1 ((pairedIn_iff _ p q).2 ⟨hsame.2, hpq⟩)
    refine .pairs hconf ⟨hok, fun x y => (h.pairs x y).trans ?_⟩
    simp only [edges_append, List.mem_append]
    exact ⟨.inl, fun hxy => hxy.elim id fun hxy => by rwa [List.mem_singleton.1 hxy]⟩
  · refine .conflict rfl (Bool.eq_false_iff.2 fun hvalid => ?_)
    have hlast : s(p, q) ∈ edges (L ++ [(p, q)]) := by simp [edges]
    have hmem_of_used : ∀ r r', s(r, r') = s(p, q) → usedAt b.used r = true → s(p, q) ∈ edges L := by
      intro r r' hr hused
      obtain ⟨z, hz⟩ := (usedAt_iff_pairedIn h.plugboard r).1 hused
      have hrz : s(r, z) ∈ edges L := (h.pairs r z).1 hz
      have hzr' : z = r' := (validate_iff _).1 hvalid r z r' (by simp [hrz]) (hr ▸ hlast)
      rwa [← hr, ← hzr']
    rw [not_and_or, Bool.not_eq_false, Bool.not_eq_false] at hfree
    have hpaired : pairedIn b.pm p q = true :=
      (h.pairs p q).2 (hfree.elim (hmem_of_used p q rfl) (hmem_of_used q p Sym2.eq_swap))
    exact hsame ⟨(usedAt_iff_pairedIn h.plugboard p).2 ⟨q, hpaired⟩, ((pairedIn_iff _ p q).1 hpaired).1⟩

theorem Block.Reports.plugPair {b : Block} {L : List (Letter × Letter)} (h : b.Reports L) {p q : Letter} (hpq : p ≠ q) :
    (plugPair (codeOf p) (codeOf q) b).Reports (L ++ [(p, q)]) := by
  cases h with
  | pairs hconf h => exact h.plugPair hconf hpq
  | conflict hconf h => exact .conflict (plugPair_pconf hconf _ _) (validate_append_eq_false h _)

/-! ### The run of the commands -/

/-- What the `PAIR` commands of a list do to the block. -/
def plugAll (L : List (Letter × Letter)) (b : Block) : Block :=
  L.foldl (fun b p => plugPair (codeOf p.1) (codeOf p.2) b) b

theorem plugAll_reports {L : List (Letter × Letter)} (hL : ∀ p ∈ L, p.1 ≠ p.2) {b : Block} (h : b.PlugboardEmpty) :
    (plugAll L b).Reports L := by
  induction L using List.reverseRecOn with
  | nil => exact reports_nil h
  | append_singleton L p ih =>
    obtain ⟨hL, hp⟩ := List.forall_mem_append.1 hL
    rw [plugAll, List.foldl_append]
    exact (ih hL).plugPair (hp p (List.mem_singleton_self p))

theorem plugAll_frame (L : List (Letter × Letter)) (b : Block) :
    plugAll L b = { b with pm := (plugAll L b).pm, used := (plugAll L b).used, pconf := (plugAll L b).pconf } := by
  induction L generalizing b with
  | nil => rfl
  | cons p L ih =>
    rw [plugAll, List.foldl_cons]
    refine (ih _).trans ?_
    rw [plugPair_frame]
    rfl

theorem plugPair_mode (x y : Code) (b : Block) : (plugPair x y b).mode = b.mode := by
  rw [plugPair_frame]

theorem execAll_pairCommands (L : List (Letter × Letter)) {s : State} (hm : s.mode = .config) :
    execAll (pairCommands L) s = { s with
      toBlock := plugAll L s.toBlock, responses := s.responses ++ List.replicate L.length 0x000000 } := by
  induction L generalizing s with
  | nil => simp [execAll, pairCommands, plugAll]
  | cons p L ih =>
    rw [pairCommands, List.map_cons, execAll, respond_pair hm, ← pairCommands, ih ((plugPair_mode _ _ _).trans hm)]
    simp [plugAll, List.replicate_succ]

/-- The `PAIR` commands of a list in `CONFIG` are all executed, and each answers `OK` (R59, R91). -/
theorem run_pairCommands (L : List (Letter × Letter)) {s : State} (hm : s.mode = .config) :
    Host.Core.run Sys2Proof.core L.length (s.presentAll (pairCommands L)) = .next { s with
      toBlock := plugAll L s.toBlock, responses := s.responses ++ List.replicate L.length 0x000000 } := by
  have hdecode : ∀ i ∈ pairCommands L, decode (encode i) = .ok i := by
    intro i hi
    obtain ⟨p, -, rfl⟩ := List.mem_map.1 hi
    exact decodeOfEncodeIsIdentity _ rfl
  have hrun := run_presentAll (pairCommands L) s hdecode
  rwa [execAll_pairCommands L hm, pairCommands, List.length_map] at hrun

/-- Settles O48: the run leaves `plugAll`, which reports the list. -/
theorem pairsRealiseValidate : Obligations.PairsRealiseValidate := by
  intro L s hL hm hempty
  have hreports : (plugAll L s.toBlock).Reports L := plugAll_reports hL hempty
  refine ⟨_, run_pairCommands L hm, hreports.pconf_eq, fun hconf p q => ?_, plugAll_frame L s.toBlock⟩
  cases hreports with
  | pairs _ h => exact (h.pairs p q).trans (mem_edges L p q)
  | conflict hconf' => exact absurd (hconf'.symm.trans hconf) (by decide)

/-- Settles O49: a valid list of such pairs has room for 13 of them, and `PCONF` says that this one is not valid. -/
theorem fourteenPairsConflict : Obligations.FourteenPairsConflict := by
  intro L s hL hdiff hlength hm hempty
  have hinvalid : validate L = false := Bool.eq_false_iff.2 fun hvalid => by
    have := two_mul_length_le_of_validate hL hdiff hvalid
    omega
  obtain ⟨t, hrun, hconf, -, -⟩ := pairsRealiseValidate L s hL hm hempty
  exact ⟨t, hrun, by rw [hconf, hinvalid]; rfl⟩

end Sys2Proof.Machine
end

section
/-! PROOFS. `RDK` and `SETK`: the answer with the triple, the word of `SETK`, its admission and its refusals (R104, R105). -/

namespace Sys2Proof.Machine

/-- Three codes below any number of zeros are the number that they spell in base 32. -/
theorem zeros_append_codes_toNat (n : Nat) (x y z : Code) :
    (0#n ++ x ++ y ++ z).toNat = (x.toNat * 2 ^ 5 + y.toNat) * 2 ^ 5 + z.toNat := by
  rw [toNat_append, toNat_append, toNat_append, BitVec.toNat_zero, Nat.zero_mul, Nat.zero_add]

/-- `OK` with the triple: zeros above the three registers (R55). -/
theorem offsetsWord_eq (k : Offsets) : (Response.ok (offsetsData k)).word = 0#9 ++ k.k1 ++ k.k2 ++ k.k3 := by
  have hword : (Response.ok (offsetsData k)).word.toNat = 0 * 2 ^ 22 + (offsetsData k).toNat := toNat_append 0#2 _
  have hdata : (offsetsData k).toNat = _ := zeros_append_codes_toNat 7 k.k1 k.k2 k.k3
  have hfields : (0#9 ++ k.k1 ++ k.k2 ++ k.k3).toNat = _ := zeros_append_codes_toNat 9 k.k1 k.k2 k.k3
  rw [Nat.zero_mul, Nat.zero_add, hdata, ← hfields] at hword
  exact BitVec.eq_of_toNat_eq hword

/-- Settles O27: `RDK` is admitted in every mode, and its effect keeps the block. -/
theorem rdkAnswersTheTriple : Obligations.RdkAnswersTheTriple := by
  refine ⟨decodeOfEncodeIsIdentity .rdk rfl, fun s => ?_⟩
  have hrespond : respond .rdk s.toBlock = respondOk (offsetsData s.k) s.toBlock :=
    arbitrate_admitted (fun b => respondOk (offsetsData b.k) b) rfl rfl
  rw [exec_eq_answer, hrespond, ← offsetsWord_eq]
  rfl

/-- The word of `SETK` is the one with the opcode 2, zeros in bits 17:8 and a selector other than 0 (R47, R51). -/
theorem decode_setkWord {w : Word} (h : w &&& 0xF3FF00 = 0x200000) (hsel : selField w ≠ 0) :
    decode w = .ok (.setk (selField w) (immField w)) := by
  obtain ⟨hop, hz⟩ := (row_selects_iff .setk w).1 (beq_iff_eq.2 h)
  exact (decode_eq_ok_iff w _).2 ⟨rowOf_of (congrArg BitVec.toNat hop), hop ▸ hz, decide_eq_true hsel⟩

/-- The selectors other than 0 are those of the three registers (R48). -/
theorem exists_slotSel {sel : BitVec 2} (h : sel ≠ 0) : ∃ i, sel = slotSel i := by
  have hcover : ∀ sel : BitVec 2, sel ≠ 0 → sel = slotSel .one ∨ sel = slotSel .two ∨ sel = slotSel .three := by decide
  rcases hcover sel h with e | e | e
  exacts [⟨_, e⟩, ⟨_, e⟩, ⟨_, e⟩]

/-- `SETK` of a register outside `CONFIG` is refused (R109). -/
theorem respond_setk_wrongMode {b : Block} (hm : b.mode ≠ .config) {sel : BitVec 2} (hsel : sel ≠ 0) (imm : BitVec 8) :
    respond (.setk sel imm) b = refuse .wrongMode b := by
  have hadm : admits (Instr.setk sel imm).mnemonic b.mode = false :=
    Bool.eq_false_iff.2 fun ha => hm (admits_config ha (.inr (.inl rfl)))
  exact arbitrate_wrongMode (setOffset sel imm) (decide_eq_true hsel) hadm

/-- Settles O21: `respond_setk` at the selector's register, and the refusals of another mode and of selector 0. -/
theorem setkNormalisesOneOffset : Obligations.SetkNormalisesOneOffset := by
  refine ⟨fun w => decode_setkWord, fun s sel imm hsel hm => ?_, fun s sel imm hsel hm => ?_, fun s imm => ?_⟩
  · obtain ⟨i, rfl⟩ := exists_slotSel hsel
    refine ⟨offsetOperand imm, normalise_toNat _, ?_⟩
    rw [exec_eq_answer, respond_setk hm]
    cases i <;> rfl
  · rw [exec_eq_answer, respond_setk_wrongMode hm hsel]
    rfl
  · have hrefuse : respond (.setk 0 imm) s.toBlock = refuse .illegal s.toBlock := rfl
    rw [exec_eq_answer, hrefuse]
    rfl

end Sys2Proof.Machine
end

section
/-! PROOFS. The odometer as a counter: the triple is its base-26 value, and a step counts it up modulo 26^3 (R102, R103). -/

namespace Sys2Proof.Machine

/-! ### The triple and its value -/

theorem value_lt {k : Offsets} (h : k.InRange) : k.value < 17576 := by
  obtain ⟨h1, h2, h3⟩ := h
  unfold Offsets.value
  omega

/-- The registers are the digits of the value, the last one the lowest. -/
theorem digits_of_value {k : Offsets} (h : k.InRange) :
    k.k3.toNat = k.value % 26 ∧ k.k2.toNat = k.value / 26 % 26 ∧ k.k1.toNat = k.value / 676 % 26 := by
  obtain ⟨h1, h2, h3⟩ := h
  unfold Offsets.value
  omega

theorem eq_of_value_eq {k k' : Offsets} (h : k.InRange) (h' : k'.InRange) (hv : k.value = k'.value) : k = k' := by
  obtain ⟨h3, h2, h1⟩ := digits_of_value h
  obtain ⟨h3', h2', h1'⟩ := digits_of_value h'
  rw [← hv] at h1' h2' h3'
  rw [Offsets.mk.injEq]
  exact ⟨BitVec.eq_of_toNat_eq (h1.trans h1'.symm), BitVec.eq_of_toNat_eq (h2.trans h2'.symm),
    BitVec.eq_of_toNat_eq (h3.trans h3'.symm)⟩

/-- The triple that holds the three lowest base-26 digits of a number. -/
def offsetsOfValue (v : Nat) : Offsets := ⟨normalise (v / 676), normalise (v / 26), normalise v⟩

theorem offsetsOfValue_inRange (v : Nat) : (offsetsOfValue v).InRange :=
  ⟨normalise_lt _, normalise_lt _, normalise_lt _⟩

theorem offsetsOfValue_value {v : Nat} (h : v < 17576) : (offsetsOfValue v).value = v := by
  have h1 := normalise_toNat (v / 676)
  have h2 := normalise_toNat (v / 26)
  have h3 := normalise_toNat v
  simp only [offsetsOfValue, Offsets.value]
  omega

/-! ### Steps -/

/-- A digit wraps to 0 exactly from 25 (R100). -/
theorem bump_eq_zero_iff {k : Code} (h : k.toNat < 26) : bump k = 0 ↔ k.toNat = 25 := by
  rw [← BitVec.toNat_inj, bump_toNat, BitVec.ofNat_eq_ofNat, BitVec.toNat_zero]
  omega

/-- One step is one more: no digit carries, the last one does, or the last two do (R102). -/
theorem stepOffsets_value {k : Offsets} (h : k.InRange) : (stepOffsets k).value = (k.value + 1) % 17576 := by
  obtain ⟨h1, h2, h3⟩ := h
  have hb1 := bump_toNat k.k1
  have hb2 := bump_toNat k.k2
  have hb3 := bump_toNat k.k3
  unfold Offsets.value
  by_cases hw3 : k.k3.toNat = 25
  · by_cases hw2 : k.k2.toNat = 25
    · simp only [stepOffsets, bump_eq_zero_iff h3, hw3, bump_eq_zero_iff h2, hw2, if_true, and_self]
      omega
    · simp only [stepOffsets, bump_eq_zero_iff h3, hw3, bump_eq_zero_iff h2, hw2, if_true, and_false, if_false]
      omega
  · simp only [stepOffsets, bump_eq_zero_iff h3, hw3, if_false, false_and]
    omega

theorem stepTimes_inRange (n : Nat) {k : Offsets} (h : k.InRange) : (stepTimes n k).InRange := by
  induction n generalizing k with
  | zero => exact h
  | succ n ih => exact ih (stepOffsets_inRange h)

theorem stepTimes_value (n : Nat) {k : Offsets} (h : k.InRange) : (stepTimes n k).value = (k.value + n) % 17576 := by
  induction n generalizing k with
  | zero => rw [stepTimes, Nat.add_zero, Nat.mod_eq_of_lt (value_lt h)]
  | succ n ih =>
    rw [stepTimes, ih (stepOffsets_inRange h), stepOffsets_value h, Nat.mod_add_mod, Nat.add_assoc, Nat.add_comm 1]

/-- Settles O50: `n` steps add `n` to the value, and the value has the triple's registers for digits. -/
theorem odometerClosedForm : Obligations.OdometerClosedForm := by
  refine ⟨fun k hk => ⟨stepOffsets_inRange hk, stepOffsets_value hk⟩, fun n k hk => ?_, fun k k' => eq_of_value_eq,
    fun v hv => ⟨offsetsOfValue v, offsetsOfValue_inRange v, offsetsOfValue_value hv⟩⟩
  have hrange : (stepTimes n k).InRange := stepTimes_inRange n hk
  rw [← stepTimes_value n hk]
  exact ⟨hrange, rfl, digits_of_value hrange⟩

/-- Settles O51: the triple is back exactly when its value is, and the value is back every 26^3 steps. -/
theorem odometerPeriodIsExact : Obligations.OdometerPeriodIsExact := by
  intro k n hk
  have hlt : k.value < 17576 := value_lt hk
  have hback : stepTimes n k = k ↔ (stepTimes n k).value = k.value :=
    ⟨congrArg Offsets.value, eq_of_value_eq (stepTimes_inRange n hk) hk⟩
  rw [hback, stepTimes_value n hk]
  omega

end Sys2Proof.Machine
end

section
/-! PROOFS. The execution of a command: its own effect where it is admitted, a refusal that changes nothing elsewhere (R108, R109). -/

namespace Sys2Proof.Machine

/-- Settles O7: `exec` is the answer that the step gives to the decoded command. -/
theorem stepRunsTheDecodedCommand : Obligations.StepRunsTheDecodedCommand := fun _ _ _ i hp hd =>
  (step_command hp hd).trans (exec_eq_answer i _).symm

/-- What each command does to the block when nothing refuses it (R91, R104, R105, R110 to R118). -/
def effect : Instr → Block → Block × Response
  | .nop => respondOk 0
  | .wrw tbl idx val => writeWiring tbl idx val
  | .setk sel imm => setOffset sel imm
  | .pair x y => fun b => respondOk 0 (plugPair x y b)
  | .start => openSession
  | .char sym => processSymbol sym
  | .stop => fun b => respondOk 0 (closeSession b)
  | .rdk => fun b => respondOk (offsetsData b.k) b
  | .rdst => fun b => respondOk (statusData b) b

/-- The block's own step is the arbitration of the command's effect. -/
theorem respond_eq_arbitrate (i : Instr) : respond i = arbitrate i (effect i) := by
  cases i <;> rfl

theorem respond_admitted {i : Instr} {b : Block} (hw : i.wellFormed = true) (ha : admits i.mnemonic b.mode = true) :
    respond i b = effect i b := by
  rw [respond_eq_arbitrate, arbitrate_admitted _ hw ha]

theorem exec_admitted {i : Instr} {s : State} (hw : i.wellFormed = true) (ha : admits i.mnemonic s.mode = true) :
    exec i s = .next (s.answer (effect i s.toBlock)) := by
  rw [exec_eq_answer, respond_admitted hw ha]

/-- A command that is not admitted in the present mode is answered `WRONG_MODE` (R109, R144). -/
theorem exec_wrongMode {i : Instr} {s : State} (hw : i.wellFormed = true) (ha : admits i.mnemonic s.mode = false) :
    exec i s = .next { s with responses := s.responses ++ [0x400002] } := by
  rw [exec_eq_answer, respond_eq_arbitrate, arbitrate_wrongMode _ hw ha]
  rfl

/-- A command whose fields address nothing is answered `ILLEGAL` in every mode (R51, log 7). -/
theorem exec_illegal {i : Instr} (hw : i.wellFormed = false) (s : State) :
    exec i s = .next { s with responses := s.responses ++ [0x400001] } := by
  have hrefuse : arbitrate i (effect i) s.toBlock = refuse .illegal s.toBlock := by simp [arbitrate, hw]
  rw [exec_eq_answer, respond_eq_arbitrate, hrefuse]
  rfl

/-- The configuration commands and `START` are refused outside `CONFIG` (R109). -/
theorem admits_eq_false_of_config {i : Instr} {m : Mode}
    (hi : i.mnemonic = .wrw ∨ i.mnemonic = .setk ∨ i.mnemonic = .pair ∨ i.mnemonic = .start) (hm : m ≠ .config) :
    admits i.mnemonic m = false :=
  Bool.eq_false_iff.2 fun ha => hm (admits_config ha hi)

/-- `CHAR` is refused outside `RUN` (R109). -/
theorem admits_char_eq_false {m : Mode} (hm : m ≠ .run) : admits .char m = false :=
  Bool.eq_false_iff.2 fun ha => hm (admits_run ha)

/-- The effect of a well-formed command answers `OK` or `ERROR`, no refusal (R136). -/
theorem responseCode_effect {i : Instr} (hw : i.wellFormed = true) (b : Block) :
    responseCode (effect i b).2.word ≠ 1 := by
  have hok : ∀ {d : BitVec 22}, (effect i b).2 = .ok d → responseCode (effect i b).2.word ≠ 1 := fun h => by
    rw [h, responseCode_ok]
    decide
  cases i with
  | wrw tbl idx val =>
    obtain ⟨p, rfl⟩ := exists_codeOf (c := idx) (of_decide_eq_true hw)
    exact hok (d := 0) (by simp [effect, writeWiring])
  | setk sel imm =>
    obtain ⟨j, rfl⟩ := exists_slotSel (of_decide_eq_true hw)
    exact hok (d := 0) (by simp [effect, setOffset])
  | start =>
    by_cases hc : checks b = 0
    · exact hok (d := 0) (by rw [effect, openSession_ok hc, respondOk_snd])
    · rw [effect, openSession_fail hc, raise_snd, responseCode_error]
      decide
  | char sym =>
    cases hx : letterOfSymbol? sym with
    | some x => exact hok (d := symbolData (symbolOf (encipher b b.k x))) (by simp [effect, processSymbol, hx])
    | none => exact hok (d := symbolData sym) (by simp [effect, processSymbol, hx])
  | _ => exact hok rfl

/-- Settles O14: each row of the table of admission, its refusals by `exec_wrongMode`, its executions by the command's effect. -/
theorem admissionByMode : Obligations.AdmissionByMode := by
  constructor
  · rintro s i hw (⟨hi, hm⟩ | ⟨hi, hm⟩)
    · exact exec_wrongMode hw (admits_eq_false_of_config hi hm)
    · exact exec_wrongMode hw (hi ▸ admits_char_eq_false hm)
  · intro s i hw hadmitted
    have ha : admits i.mnemonic s.mode = true := by
      rcases hadmitted with ⟨hi | hi | hi | hi, hm⟩ | ⟨hi, hm⟩ | hi | hi | hi | hi
      all_goals simp [admits, *]
    exact ⟨_, _, exec_admitted hw ha, rfl, responseCode_effect hw s.toBlock⟩

end Sys2Proof.Machine
end

section
/-! PROOFS. Output only under a valid configuration, and no error in a session (R126). -/

namespace Sys2Proof.Machine

/-- Only `START` in `CONFIG` is answered `ERROR` (R142). -/
theorem start_of_respondWord_error {w : Word} {b : Block} (h : responseCode (respondWord w b).2.word = 2) :
    decode w = .ok .start ∧ b.mode = .config := by
  cases hd : decode w with
  | error e => simp [respondWord_error hd] at h
  | ok i =>
    rw [respondWord_ok hd] at h
    rcases respond_cases i b with ⟨why, e⟩ | ⟨rfl, hm, -, -⟩ | ⟨-, -, d, e⟩
    · simp [e] at h
    · exact ⟨rfl, hm⟩
    · simp [e] at h

/-- A `CHAR` that is not refused is admitted (R109). -/
theorem run_of_respond_char {sym : Symbol} {b : Block} (h : responseCode (respond (.char sym) b).2.word = 0) :
    b.mode = .run := by
  rcases arbitrate_cases (.char sym) (effect (.char sym)) b with ⟨hw, -⟩ | ⟨-, -, e⟩ | ⟨-, ha, -⟩
  · cases hw
  · simp [respond_eq_arbitrate, e] at h
  · exact admits_run ha

/-- The response that a step on a word appends is the block's own. -/
theorem step_word_response {s t : State} {w r : Word} {rest : List HostEvent} (hp : s.pending = .command w :: rest)
    (hstep : step s = .next t) (hr : t.responses = s.responses ++ [r]) : r = (respondWord w s.toBlock).2.word := by
  rw [step_word hp] at hstep
  cases hstep
  simpa using hr.symm

/-- Settles O36: an answered `CHAR` was admitted, so the mode is `RUN`, where the invariant has a valid configuration; an `ERROR` comes
from `CONFIG`. -/
theorem noOutputUnderAnInvalidConfiguration : Obligations.NoOutputUnderAnInvalidConfiguration := by
  constructor
  · intro s t w rest sym r hinv hp hd hstep hr hcode
    rw [step_word_response hp hstep hr, respondWord_ok hd] at hcode
    have hm : s.mode = .run := run_of_respond_char hcode
    obtain ⟨htables, hpconf, -⟩ := hinv.run hm
    exact ⟨hm, (checks_eq_zero_iff s.toBlock).2 ⟨htables, hpconf⟩⟩
  · intro s t w rest r hm hp hstep hr hcode
    rw [step_word_response hp hstep hr] at hcode
    obtain ⟨-, hconfig⟩ := start_of_respondWord_error hcode
    simp [hm] at hconfig

end Sys2Proof.Machine
end

section
/-! PROOFS. The response words of `CHAR` and `RDST` (R55, R118). -/

namespace Sys2Proof.Machine

theorem symbolOf_toNat (x : Letter) : (symbolOf x).toNat = 0x41 + x.val := by
  have := x.isLt
  simp only [symbolOf, BitVec.toNat_ofNat]
  omega

/-- The word of `OK` is its data, as a number. -/
theorem okWord_toNat (d : BitVec 22) : (Response.ok d).word.toNat = d.toNat := by
  have hword : (Response.ok d).word.toNat = (0#2).toNat * 2 ^ 22 + d.toNat := toNat_append 0#2 d
  simpa using hword

/-- `OK` with a symbol is the symbol's code with zeros above it (R55). -/
theorem symbolWord_eq (sym : Symbol) : (Response.ok (symbolData sym)).word = BitVec.ofNat 24 sym.toNat := by
  have hsym : sym.toNat < 2 ^ 8 := sym.isLt
  apply BitVec.eq_of_toNat_eq
  rw [okWord_toNat, symbolData, BitVec.toNat_setWidth_of_le (by decide), BitVec.toNat_ofNat]
  omega

/-- `MODE`, `PCONF` and `ERR` side by side below any number of zeros, as a number. -/
theorem zeros_append_status_toNat (n : Nat) (m : BitVec 2) (p : Bool) (e : BitVec 7) :
    (0#n ++ m ++ BitVec.ofBool p ++ e).toNat = 0x100 * m.toNat + 0x80 * p.toNat + e.toNat := by
  rw [toNat_append, toNat_append, toNat_append, BitVec.toNat_zero, BitVec.toNat_ofBool]
  omega

/-- `OK` with the status: zeros above the three fields (R55, R118). -/
theorem statusWord_eq (b : Block) :
    (Response.ok (statusData b)).word = 0#14 ++ b.mode.code ++ BitVec.ofBool b.pconf ++ b.err := by
  apply BitVec.eq_of_toNat_eq
  rw [okWord_toNat, statusData, zeros_append_status_toNat, zeros_append_status_toNat]

theorem statusWord_toNat (b : Block) :
    (Response.ok (statusData b)).word.toNat = 0x100 * b.mode.code.toNat + 0x80 * b.pconf.toNat + b.err.toNat := by
  rw [statusWord_eq, zeros_append_status_toNat]

end Sys2Proof.Machine
end

section
/-! PROOFS. The commands `NOP`, `WRW`, `START`, `CHAR`, `STOP`, `RDST`: their words, their effects and their refusals (R110 to R118). -/

namespace Sys2Proof.Machine

/-! ### `NOP` (R110) -/

/-- Settles O19: the word of `NOP` is 0, and its effect is the answer. -/
theorem nopWritesNothing : Obligations.NopWritesNothing :=
  ⟨decodeOfEncodeIsIdentity .nop rfl, rfl, fun _ => exec_admitted (i := .nop) rfl rfl⟩

/-! ### `WRW` (R111) -/

theorem ofCode_eq_iff (c : BitVec 2) (tbl : WiringTable) : WiringTable.ofCode c = tbl ↔ c = tbl.code :=
  ⟨fun h => h ▸ (code_ofCode c).symm, fun h => h ▸ ofCode_code tbl⟩

/-- The word of `WRW` is the one with the opcode 1, zeros in bits 7:0 and an index up to 25 (R47, R51). -/
theorem decode_wrwWord {w : Word} (h : w &&& 0xF000FF = 0x100000) (hidx : (idxField w).toNat ≤ 25) :
    decode w = .ok (.wrw (WiringTable.ofCode (tblField w)) (idxField w) (valField w)) := by
  obtain ⟨hop, hz⟩ := (row_selects_iff .wrw w).1 (beq_iff_eq.2 h)
  exact (decode_eq_ok_iff w _).2
    ⟨rowOf_of (congrArg BitVec.toNat hop), hop ▸ hz, decide_eq_true (Nat.lt_succ_of_le hidx)⟩

/-- Settles O20: the write of `respond_wrw`, read back at every entry, and the refusals of another mode and of another index. -/
theorem wrwWritesOneEntry : Obligations.WrwWritesOneEntry := by
  refine ⟨fun w h hidx => ?_, fun s tbl p val hm => ?_, fun s tbl p val hm => ?_, fun s tbl idx val hidx => ?_⟩
  · exact ⟨_, decode_wrwWord h hidx, ofCode_eq_iff _ .u, ofCode_eq_iff _ .w1, ofCode_eq_iff _ .w2, ofCode_eq_iff _ .w3⟩
  · refine ⟨_, exec_eq_answer _ s, fun tbl' q => ?_, ?_⟩
    · rw [answer_toBlock, respond_wrw hm, respondOk_fst, wiring_setWiring]
      by_cases htbl : tbl' = tbl
      · simp [htbl, memRead_memWrite]
      · simp [htbl]
    · simp [respond_wrw hm]
  · exact exec_wrongMode (wrw_codeOf_wellFormed tbl p val) (admits_eq_false_of_config (.inl rfl) hm)
  · exact exec_illegal (i := .wrw tbl idx val) (decide_eq_false (Nat.not_lt.2 hidx)) s

/-! ### `START` (R112, R113) -/

theorem respond_start {b : Block} (hm : b.mode = .config) : respond .start b = openSession b :=
  respond_admitted rfl (by rw [hm]; rfl)

/-- The kinds of error in the bits of `ERR` (R138). -/
theorem isInvalidWiring_iff (e : BitVec 7) : isInvalidWiring e = true ↔ ∃ j < 5, e.getLsbD j = true := by
  revert e
  decide

theorem isPlugboardConflict_eq (e : BitVec 7) : isPlugboardConflict e = e.getLsbD 5 := by
  revert e
  decide

/-- Settles O23: the two branches of `openSession`, the refusal, and bit 5 of `checks_bits`. -/
theorem startOpensOrRaises : Obligations.StartOpensOrRaises := by
  refine ⟨decodeOfEncodeIsIdentity .start rfl, fun s hm hc => ?_, fun s hm hc => ?_, fun s hm => ?_, fun b => ?_⟩
  · rw [exec_eq_answer, respond_start hm, openSession_ok hc]
    rfl
  · rw [exec_eq_answer, respond_start hm, openSession_fail hc, ← errorWord_eq]
    rfl
  · exact exec_wrongMode rfl (admits_eq_false_of_config (.inr (.inr (.inr rfl))) hm)
  · obtain ⟨-, -, -, -, -, hconf, -⟩ := checks_bits b
    exact ⟨isInvalidWiring_iff _, by rw [isPlugboardConflict_eq, hconf]⟩

/-- Settles O24: the bits that `checks_bits` reads off the definition. -/
theorem checksReportEveryValidation : Obligations.ChecksReportEveryValidation := checks_bits

/-! ### `CHAR` (R114, R116) -/

/-- The word of `CHAR` is the one with the opcode 5 and zeros in bits 19:8 (R47). -/
theorem decode_charWord {w : Word} (h : w &&& 0xFFFF00 = 0x500000) : decode w = .ok (.char (symField w)) := by
  obtain ⟨hop, hz⟩ := (row_selects_iff .char w).1 (beq_iff_eq.2 h)
  exact (decode_eq_ok_iff w _).2 ⟨rowOf_of (congrArg BitVec.toNat hop), hop ▸ hz, rfl⟩

theorem respond_char {b : Block} (hm : b.mode = .run) (sym : Symbol) :
    respond (.char sym) b = processSymbol sym b :=
  respond_admitted rfl (by rw [hm]; rfl)

theorem processSymbol_symbolOf (x : Letter) (b : Block) :
    processSymbol (symbolOf x) b =
      respondOk (symbolData (symbolOf (encipher b b.k x))) { b with k := stepOffsets b.k } := by
  simp [processSymbol]

theorem processSymbol_passthrough {sym : Symbol} (h : isAlphabetic sym = false) (b : Block) :
    processSymbol sym b = respondOk (symbolData sym) b := by
  simp [processSymbol, (letterOfSymbol?_eq_none sym).2 h]

/-- Settles O25: the two branches of `processSymbol` with the words of their answers, and the refusal. -/
theorem charEnciphersThenSteps : Obligations.CharEnciphersThenSteps := by
  refine ⟨fun w => decode_charWord, fun s sym x hm hx => ?_, fun s sym hm houtside => ?_, fun s sym hm => ?_⟩
  · obtain rfl : sym = symbolOf x := BitVec.eq_of_toNat_eq (hx.trans (symbolOf_toNat x).symm)
    rw [exec_eq_answer, respond_char hm, processSymbol_symbolOf, ← symbolOf_toNat, ← symbolWord_eq]
    rfl
  · have hpass : isAlphabetic sym = false := by
      simp only [isAlphabetic, Bool.and_eq_false_iff, decide_eq_false_iff_not]
      omega
    rw [exec_eq_answer, respond_char hm, processSymbol_passthrough hpass, ← symbolWord_eq]
    rfl
  · exact exec_wrongMode rfl (admits_char_eq_false hm)

/-! ### `STOP` (R117) -/

/-- Settles O26: the effect is `closeSession`, and `STOP` repeated is idempotent. -/
theorem stopClearsTheSession : Obligations.StopClearsTheSession := by
  refine ⟨decodeOfEncodeIsIdentity .stop rfl, fun s => ⟨identityTable, memRead_identityTable, ?_, fun t u => ?_⟩⟩
  · exact exec_admitted (i := .stop) rfl rfl
  · exact repeatedCommandsAreIdempotent .stop s t u nofun nofun

/-! ### `RDST` (R118) -/

theorem exec_rdst (s : State) :
    exec .rdst s = .next { s with responses := s.responses ++ [(Response.ok (statusData s.toBlock)).word] } :=
  exec_admitted (i := .rdst) rfl rfl

/-- `ERR` in `FAULT` is one of 1..63 (R27). -/
theorem Block.Inv.err_range {b : Block} (h : b.Inv) (hm : b.mode = .fault) : 1 ≤ b.err.toNat ∧ b.err.toNat ≤ 63 := by
  obtain ⟨hfault, hbit6, -⟩ := h.err
  have hrange : ∀ e : BitVec 7, e ≠ 0 → e.getLsbD 6 = false → 1 ≤ e.toNat ∧ e.toNat ≤ 63 := by decide
  exact hrange b.err (hfault.2 hm) hbit6

/-- Settles O28: the answer is the number that the three fields spell, and the invariant says which values they have in each mode. -/
theorem rdstAnswersTheStatus : Obligations.RdstAnswersTheStatus := by
  refine ⟨decodeOfEncodeIsIdentity .rdst rfl, fun s => ?_, fun s hinv => ⟨_, _, exec_rdst s, rfl, ?_⟩⟩
  · rw [exec_rdst, statusWord_eq]
  have hword := statusWord_toNat s.toBlock
  cases hm : s.mode with
  | config =>
    have herr : s.err = 0 := hinv.err_eq_zero (by simp [hm])
    cases hconf : s.pconf with
    | false => exact .inl ⟨rfl, rfl, BitVec.eq_of_toNat_eq (by simp [hword, hm, herr, hconf, Mode.code])⟩
    | true => exact .inr (.inl ⟨rfl, rfl, BitVec.eq_of_toNat_eq (by simp [hword, hm, herr, hconf, Mode.code])⟩)
  | run =>
    obtain ⟨-, hconf, herr⟩ := hinv.run hm
    exact .inr (.inr (.inl ⟨rfl, BitVec.eq_of_toNat_eq (by simp [hword, hm, herr, hconf, Mode.code])⟩))
  | fault =>
    exact .inr (.inr (.inr ⟨rfl, by rw [hword, hm]; rfl, hinv.err_range hm⟩))

end Sys2Proof.Machine
end

section
/-! PROOFS. `Encipher` as the nine stages and as the plugboard around the rotor core (R115, R124). -/

namespace Sys2Proof.Machine

/-- A rotation by a register is a sum modulo 26 (R65). -/
theorem rotate_eq_ofNat (k : Code) (x : Letter) : rotate k.toNat x = Fin.ofNat 26 (x.val + k.toNat) := by
  have hsum : ((rotate k.toNat x).val : Int) = (x.val + k.toNat) % 26 := rotate_val _ _
  apply Fin.ext
  rw [Fin.val_ofNat]
  omega

/-- The entry that holds `y + k` modulo 26 holds the code of `y` rotated by `k`. -/
theorem eq_codeOf_rotate {c k : Code} {y : Letter} (h : c.toNat = (y.val + k.toNat) % 26) :
    c = codeOf (rotate k.toNat y) := by
  apply BitVec.eq_of_toNat_eq
  rw [codeOf_toNat, rotate_eq_ofNat, Fin.val_ofNat, h]

/-- A stage forward, in the numbers of the table read (R70). -/
theorem rotorFwd_eq_of_entry {t : Table} {k : Code} {x y : Letter}
    (h : (memRead t (Fin.ofNat 26 (x.val + k.toNat))).toNat = (y.val + k.toNat) % 26) : rotorFwd t k x = y := by
  rw [rotorFwd, rotate_eq_ofNat, eq_codeOf_rotate h, letterOf_codeOf, rotate_neg_rotate]

/-- A stage backward undoes the stage forward whose table read it is (R71). -/
theorem rotorBwd_eq_of_entry {t : Table} (ht : validRotor t = true) {k : Code} {x y : Letter}
    (h : (memRead t (Fin.ofNat 26 (x.val + k.toNat))).toNat = (y.val + k.toNat) % 26) : rotorBwd t k y = x := by
  rw [← rotorFwd_eq_of_entry h, rotorBwd_rotorFwd ht]

theorem plugApply_eq_of_entry {b : Block} {x y : Letter} (h : memRead b.pm x = codeOf y) : plugApply b x = y := by
  rw [plugApply, h, letterOf_codeOf]

theorem reflect_eq_of_entry {b : Block} {x y : Letter} (h : memRead b.u x = codeOf y) : reflect b x = y := by
  rw [reflect, h, letterOf_codeOf]

/-- Settles O53: each stage takes its letter to the next one. -/
theorem encipherRunsTheNineStages : Obligations.EncipherRunsTheNineStages := by
  rintro b k x s1 s2 s3 s4 s5 s6 s7 s8 s9 ⟨hw1, hw2, hw3, -⟩ h1 h2 h3 h4 h5 h6 h7 h8 h9
  rw [encipher, plugApply_eq_of_entry h1, rotorFwd_eq_of_entry h2, rotorFwd_eq_of_entry h3, rotorFwd_eq_of_entry h4,
    reflect_eq_of_entry h5, rotorBwd_eq_of_entry hw1 h6, rotorBwd_eq_of_entry hw2 h7, rotorBwd_eq_of_entry hw3 h8,
    plugApply_eq_of_entry h9]

/-- The nine stages are the plugboard, the rotor core and the plugboard again (R77, R115). -/
theorem encipher_eq_rotorCore (b : Block) (k : Offsets) (x : Letter) :
    encipher b k x = plugApply b (rotorCore b k (plugApply b x)) := rfl

/-- A symmetric plugboard conjugates the rotor core, and a conjugate keeps both of its properties. -/
theorem encipher_spec {b : Block} (htables : b.TablesValid) (hplug : ∀ x, plugApply b (plugApply b x) = x)
    (k : Offsets) (x : Letter) : encipher b k (encipher b k x) = x ∧ encipher b k x ≠ x := by
  obtain ⟨hinvol, hmoves⟩ := rotorCoreIsAnInvolution b k (plugApply b x) htables
  simp only [encipher_eq_rotorCore]
  constructor
  · rw [hplug, hinvol, hplug]
  · intro hfix
    exact hmoves ((hplug _).symm.trans (congrArg (plugApply b) hfix))

/-- Settles O54: in `RUN` the invariant has valid tables, and its plugboard is symmetric. -/
theorem encipherIsAnInvolution : Obligations.EncipherIsAnInvolution := by
  intro b k x hinv hm
  obtain ⟨htables, -, -⟩ := hinv.run hm
  exact encipher_spec htables (fun y => (plugboardIsSymmetric b y hinv.plugboard).1) k x

end Sys2Proof.Machine
end

section
/-! PROOFS. `Run`, symbol by symbol: its output, its final triple, and the `CHAR` commands that compute it (R119, R122). -/

namespace Sys2Proof.Machine

@[simp] theorem isAlphabetic_symbolOf (x : Letter) : isAlphabetic (symbolOf x) = true := by
  have := x.isLt
  simp only [isAlphabetic, symbolOf_toNat, Bool.and_eq_true, decide_eq_true_eq]
  omega

/-- A symbol is a letter's or passes through (R34). -/
theorem symbol_cases (sym : Symbol) : (∃ x, sym = symbolOf x) ∨ isAlphabetic sym = false := by
  rw [← letterOfSymbol?_eq_none]
  cases h : letterOfSymbol? sym with
  | some x => exact .inl ⟨x, (letterOfSymbol?_eq_some sym x).1 h⟩
  | none => exact .inr rfl

@[simp] theorem runMessage_nil (b : Block) (k : Offsets) : runMessage b k [] = ([], k) := rfl

@[simp] theorem runMessage_letter (b : Block) (k : Offsets) (x : Letter) (msg : List Symbol) :
    runMessage b k (symbolOf x :: msg) =
      (symbolOf (encipher b k x) :: (runMessage b (stepOffsets k) msg).1, (runMessage b (stepOffsets k) msg).2) := by
  simp [runMessage]

theorem runMessage_passthrough {sym : Symbol} (h : isAlphabetic sym = false) (b : Block) (k : Offsets)
    (msg : List Symbol) :
    runMessage b k (sym :: msg) = (sym :: (runMessage b k msg).1, (runMessage b k msg).2) := by
  simp [runMessage, (letterOfSymbol?_eq_none sym).2 h]

/-- Settles O55, by induction on the message: a letter's symbol is one step more, any other is none. -/
theorem finalOffsetsCountTheLetters : Obligations.FinalOffsetsCountTheLetters := by
  intro b k msg
  induction msg generalizing k with
  | nil => rfl
  | cons sym msg ih =>
    rcases symbol_cases sym with ⟨x, rfl⟩ | hpass
    · simp [ih, stepTimes]
    · simp [runMessage_passthrough hpass, hpass, ih]

/-- What an output symbol keeps of the symbol it answers (R116). -/
def Answers (x y : Symbol) : Prop := isAlphabetic y = isAlphabetic x ∧ (isAlphabetic x = false → y = x)

/-- Place by place the output answers the message. -/
theorem runMessage_answers (b : Block) (k : Offsets) (msg : List Symbol) :
    List.Forall₂ Answers msg (runMessage b k msg).1 := by
  induction msg generalizing k with
  | nil => exact .nil
  | cons sym msg ih =>
    rcases symbol_cases sym with ⟨x, rfl⟩ | hpass
    · rw [runMessage_letter]
      exact .cons ⟨by simp, by simp⟩ (ih _)
    · rw [runMessage_passthrough hpass]
      exact .cons ⟨rfl, fun _ => rfl⟩ (ih k)

/-- Settles O56: lists that answer each other place by place have one length. -/
theorem outputKeepsPositions : Obligations.OutputKeepsPositions := by
  intro b k msg
  have hanswers := runMessage_answers b k msg
  refine ⟨hanswers.length_eq.symm, fun j x y hx hy => ?_⟩
  obtain ⟨hj, rfl⟩ := List.getElem?_eq_some_iff.1 hx
  obtain ⟨hj', rfl⟩ := List.getElem?_eq_some_iff.1 hy
  exact hanswers.get hj hj'

/-- `Run` takes from the block what `Encipher` takes from it. -/
theorem runMessage_congr {b b' : Block} (h : encipher b = encipher b') : runMessage b = runMessage b' := by
  funext k msg
  induction msg generalizing k with
  | nil => rfl
  | cons sym msg ih =>
    rcases symbol_cases sym with ⟨x, rfl⟩ | hpass
    · simp [h, ih]
    · simp [runMessage_passthrough hpass, ih]

/-- `Encipher` takes the triple as an argument, not from the registers. -/
theorem runMessage_with_k (b : Block) (k : Offsets) : runMessage { b with k := k } = runMessage b := runMessage_congr rfl

/-- The `CHAR` commands of a message, executed in `RUN`, answer its output and leave its final triple (R114, R119). -/
theorem execAll_msgCommands (msg : List Symbol) {s : State} (hm : s.mode = .run) :
    execAll (msgCommands msg) s = { s with
      k := (runMessage s.toBlock s.k msg).2,
      responses := s.responses ++ (runMessage s.toBlock s.k msg).1.map fun y => BitVec.ofNat 24 y.toNat } := by
  induction msg generalizing s with
  | nil => simp [execAll, msgCommands]
  | cons sym msg ih =>
    rw [msgCommands, List.map_cons, execAll, respond_char hm, ← msgCommands]
    rcases symbol_cases sym with ⟨x, rfl⟩ | hpass
    · rw [processSymbol_symbolOf, ih (by exact hm), runMessage_letter]
      simp [State.answer, runMessage_with_k, symbolWord_eq]
    · rw [processSymbol_passthrough hpass, ih (by exact hm), runMessage_passthrough hpass]
      simp [State.answer, symbolWord_eq]

theorem msgCommands_wellFormed (msg : List Symbol) : ∀ i ∈ msgCommands msg, i.wellFormed = true := by
  intro i hi
  obtain ⟨sym, -, rfl⟩ := List.mem_map.1 hi
  rfl

/-- Settles O57: the run of the commands is their execution in order. -/
theorem charStreamComputesRun : Obligations.CharStreamComputesRun := by
  intro msg s hm
  have hrun := run_presentAll (msgCommands msg) s fun i hi =>
    decodeOfEncodeIsIdentity i (msgCommands_wellFormed msg i hi)
  rwa [execAll_msgCommands msg hm, msgCommands, List.length_map] at hrun

end Sys2Proof.Machine
end

section
/-! PROOFS. The partner map of a list of pairs: a symmetric plugboard when the list is valid, and the one that the `PAIR` commands
leave (R93, R119). -/

namespace Sys2Proof.Machine

@[simp] theorem memRead_partnerMap (L : List (Letter × Letter)) (x : Letter) :
    memRead (partnerMap L) x = codeOf (partnerIn L x) := by
  simp [memRead, partnerMap, Vector.get_eq_getElem]

/-- The partner of a letter is in a pair with it, or the letter is in no pair. -/
theorem partnerIn_cases (L : List (Letter × Letter)) (x : Letter) :
    s(x, partnerIn L x) ∈ edges L ∨ partnerIn L x = x ∧ ∀ y, s(x, y) ∉ edges L := by
  cases hfind : L.find? fun p => p.1 == x || p.2 == x with
  | some p =>
    have hmem : p ∈ L := List.mem_of_find?_eq_some hfind
    have hx : p.1 = x ∨ p.2 = x := by simpa using List.find?_some hfind
    refine .inl ((mem_edges L _ _).2 ?_)
    by_cases hfst : p.1 = x
    · have hpartner : partnerIn L x = p.2 := by simp [partnerIn, hfind, hfst]
      rw [hpartner, ← hfst]
      exact .inl hmem
    · have hpartner : partnerIn L x = p.1 := by simp [partnerIn, hfind, hfst]
      rw [hpartner, ← hx.resolve_left hfst]
      exact .inr hmem
  | none =>
    have hnone : ∀ p ∈ L, ¬ (p.1 = x ∨ p.2 = x) := by simpa using hfind
    refine .inr ⟨by simp [partnerIn, hfind], fun y hy => ?_⟩
    rcases (mem_edges L x y).1 hy with hxy | hyx
    · exact hnone _ hxy (.inl rfl)
    · exact hnone _ hyx (.inr rfl)

/-- In a valid list partners hold each other: each is the other's only one (R89). -/
theorem partnerIn_partnerIn {L : List (Letter × Letter)} (hvalid : validate L = true) (x : Letter) :
    partnerIn L (partnerIn L x) = x := by
  rcases partnerIn_cases L x with hx | ⟨hx, -⟩
  · rw [Sym2.eq_swap] at hx
    rcases partnerIn_cases L (partnerIn L x) with hback | ⟨-, hnone⟩
    · exact (validate_iff L).1 hvalid _ _ _ hback hx
    · exact absurd hx (hnone x)
  · rw [hx, hx]

/-- A plugboard that holds exactly the pairs of a list is its partner map (R92, R119). -/
theorem Block.Realises.pm_eq {b : Block} {L : List (Letter × Letter)} (h : b.Realises L) : b.pm = partnerMap L := by
  obtain ⟨σ, hσ⟩ := (plugboardOk_iff b).1 h.plugboard
  refine table_ext fun x => ?_
  rw [memRead_partnerMap]
  rcases partnerIn_cases L x with hx | ⟨hself, hnone⟩
  · exact ((pairedIn_iff _ x _).1 ((h.pairs x _).2 hx)).1
  · have hfix : σ x = x := by
      by_contra hne
      exact hnone (σ x) ((h.pairs x _).1 ((pairedIn_iff _ x _).2 ⟨hσ.entry x, Ne.symm hne⟩))
    rw [hσ.entry, hfix, hself]

end Sys2Proof.Machine
end

section
/-! PROOFS. `Transform` as a function: its two results, and its reciprocity (R119, R121). -/

namespace Sys2Proof.Machine

theorem transform_eq_ok_iff (a : TransformArgs) (r : List Symbol × Offsets) :
    transform a = .ok r ↔ checks a.config = 0 ∧ runMessage a.config a.initial a.msg = r := by
  unfold transform
  split_ifs with hc
  · rw [Except.ok.injEq, and_iff_right hc]
  · exact ⟨nofun, fun h => absurd h.1 hc⟩

theorem transform_eq_error_iff (a : TransformArgs) (e : BitVec 7) :
    transform a = .error e ↔ checks a.config ≠ 0 ∧ checks a.config = e := by
  unfold transform
  split_ifs with hc
  · exact ⟨nofun, fun h => absurd hc h.1⟩
  · rw [Except.error.injEq, and_iff_right hc]

/-- The list of pairs of a configuration without failed checks is valid. -/
theorem TransformArgs.validate_of_checks {a : TransformArgs} (hc : checks a.config = 0) : validate a.pairs = true := by
  have hconf : (!validate a.pairs) = false := ((checks_eq_zero_iff a.config).1 hc).2
  simpa using hconf

/-- When `Encipher` is an involution, so is `Run` from one triple: both messages have their letters at the same places. -/
theorem runMessage_runMessage {b : Block} (hinvol : ∀ k x, encipher b k (encipher b k x) = x) (k : Offsets)
    (msg : List Symbol) : runMessage b k (runMessage b k msg).1 = (msg, (runMessage b k msg).2) := by
  induction msg generalizing k with
  | nil => rfl
  | cons sym msg ih =>
    rcases symbol_cases sym with ⟨x, rfl⟩ | hpass
    · simp [hinvol, ih]
    · simp [runMessage_passthrough hpass, ih]

/-- Settles O60: the configuration has passed every check, so `Encipher` is an involution under it. -/
theorem transformIsReciprocal : Obligations.TransformIsReciprocal := by
  intro a out k _ hok
  obtain ⟨hc, hrun⟩ := (transform_eq_ok_iff a (out, k)).1 hok
  obtain ⟨htables, -⟩ := (checks_eq_zero_iff a.config).1 hc
  have hplug : ∀ x, plugApply a.config (plugApply a.config x) = x := fun x => by
    have happly : ∀ y, plugApply a.config y = partnerIn a.pairs y := fun y => plugApply_eq_of_entry (memRead_partnerMap _ y)
    rw [happly, happly, partnerIn_partnerIn (a.validate_of_checks hc)]
  have hback := runMessage_runMessage (fun k x => (encipher_spec htables hplug k x).1) a.initial a.msg
  rw [hrun] at hback
  exact (transform_eq_ok_iff _ _).2 ⟨hc, hback⟩

end Sys2Proof.Machine
end

section
/-! PROOFS. The command sequence of `TRANSFORM`, part by part, from a block in any state (R62, R120). -/

namespace Sys2Proof.Machine

/-! ### Runs of commands, joined -/

/-- Presented to the block `b`, the commands leave the block `b'` and answer `rs`. -/
def Runs (cmds : List Instr) (b b' : Block) (rs : List Word) : Prop :=
  ∀ s : State, s.toBlock = b → Host.Core.run Sys2Proof.core cmds.length (s.presentAll cmds) =
    .next { s with toBlock := b', responses := s.responses ++ rs }

theorem Runs.append {cmds cmds' : List Instr} {b b' b'' : Block} {rs rs' : List Word} (h : Runs cmds b b' rs)
    (h' : Runs cmds' b' b'' rs') : Runs (cmds ++ cmds') b b'' (rs ++ rs') := by
  intro s hs
  rw [presentAll_append, List.length_append, run_append _ _ _ _ (h (s.presentAll cmds') hs)]
  refine (h' { s with toBlock := b', responses := s.responses ++ rs } rfl).trans ?_
  rw [List.append_assoc]

theorem Runs.command {i : Instr} {b b' : Block} {r : Response} (hw : i.wellFormed = true) (h : respond i b = (b', r)) :
    Runs [i] b b' [r.word] := by
  rintro s rfl
  have hrun := run_presentAll [i] s fun j hj => by
    rw [List.mem_singleton.1 hj]
    exact decodeOfEncodeIsIdentity i hw
  rwa [execAll, execAll, h] at hrun

/-- Presented to the block `b`, the commands leave the block `b'` and answer `OK` without data to each. -/
def RunsOk (cmds : List Instr) (b b' : Block) : Prop := Runs cmds b b' (List.replicate cmds.length 0x000000)

theorem RunsOk.append {cmds cmds' : List Instr} {b b' b'' : Block} (h : RunsOk cmds b b') (h' : RunsOk cmds' b' b'') :
    RunsOk (cmds ++ cmds') b b'' := by
  have hboth := Runs.append h h'
  rwa [List.replicate_append_replicate, ← List.length_append] at hboth

/-! ### The configuration commands -/

theorem runsOk_stop (b : Block) : RunsOk [.stop] b (closeSession b) := Runs.command rfl rfl

theorem runsOk_loadTable {b : Block} (hm : b.mode = .config) (tbl : WiringTable) (t : Table) :
    RunsOk (loadTable tbl t) b (b.setWiring tbl t) := by
  rintro s rfl
  rw [loadTable_length]
  exact run_loadTable tbl t hm

/-- The command of `KEYS` for one register writes the integer's residue (R60, R104). -/
theorem runsOk_keyCommand {b : Block} (hm : b.mode = .config) (i : Slot) (key : Int) :
    RunsOk [keyCommand i key] b { b with k := b.k.write i (normalise key) } := by
  obtain ⟨imm, hcmd, himm⟩ := keyCommand_eq i key
  have hvalue : offsetOperand imm = normalise key := by rw [offsetOperand, normalise, himm, normalise]
  have hwf : (Instr.setk (slotSel i) imm).wellFormed = true := by cases i <;> rfl
  rw [hcmd, ← hvalue]
  exact Runs.command hwf (respond_setk hm i imm)

theorem runsOk_keysCommands {b : Block} (hm : b.mode = .config) (k1 k2 k3 : Int) :
    RunsOk (keysCommands k1 k2 k3) b { b with k := ⟨normalise k1, normalise k2, normalise k3⟩ } := by
  have h1 := runsOk_keyCommand hm .one k1
  have h2 := h1.append (runsOk_keyCommand (by exact hm) .two k2)
  exact h2.append (runsOk_keyCommand (by exact hm) .three k3)

theorem runsOk_pairCommands {b : Block} (hm : b.mode = .config) (L : List (Letter × Letter)) :
    RunsOk (pairCommands L) b (plugAll L b) := by
  rintro s rfl
  rw [pairCommands, List.length_map]
  exact run_pairCommands L hm

/-- The block after the configuration commands: the session closed, the tables, the offsets and the plugboard loaded. -/
def TransformArgs.configured (a : TransformArgs) (b : Block) : Block :=
  plugAll a.pairs { closeSession b with w1 := a.w1, w2 := a.w2, w3 := a.w3, u := a.u, k := a.initial }

theorem runsOk_configureCommands (a : TransformArgs) (b : Block) : RunsOk (configureCommands a) b (a.configured b) := by
  have hstop := runsOk_stop b
  have hw1 := hstop.append (runsOk_loadTable rfl .w1 a.w1)
  have hw2 := hw1.append (runsOk_loadTable rfl .w2 a.w2)
  have hw3 := hw2.append (runsOk_loadTable rfl .w3 a.w3)
  have hu := hw3.append (runsOk_loadTable rfl .u a.u)
  have hkeys := hu.append (runsOk_keysCommands rfl a.i1 a.i2 a.i3)
  exact hkeys.append (runsOk_pairCommands rfl a.pairs)

section Configured
variable {a : TransformArgs} (hpairs : ∀ p ∈ a.pairs, p.1 ≠ p.2) (b : Block)
include hpairs

/-- `STOP` has emptied the plugboard, so `PCONF` reports the list of pairs. -/
theorem configured_reports : (a.configured b).Reports a.pairs := plugAll_reports hpairs ⟨rfl, rfl, rfl⟩

/-- The block holds `Transform`'s configuration but for the plugboard: its `PCONF` is the configuration's (R92). -/
theorem configured_eq : a.configured b = { a.config with
    k := a.initial, pm := (a.configured b).pm, used := (a.configured b).used } := by
  have hframe : a.configured b = _ := plugAll_frame a.pairs _
  rwa [← TransformArgs.configured, (configured_reports hpairs b).pconf_eq] at hframe

theorem configured_mode : (a.configured b).mode = .config := by
  rw [configured_eq hpairs]
  rfl

theorem configured_k : (a.configured b).k = a.initial := by
  rw [configured_eq hpairs]

theorem checks_configured : checks (a.configured b) = checks a.config := by
  rw [configured_eq hpairs]
  rfl

/-- Where no check fails, the plugboard is the partner map, so the block computes `Transform`'s `Run`. -/
theorem runMessage_configured (hc : checks a.config = 0) : runMessage (a.configured b) = runMessage a.config := by
  have hpm : (a.configured b).pm = partnerMap a.pairs := by
    cases configured_reports hpairs b with
    | pairs _ h => exact h.pm_eq
    | conflict _ h => exact absurd (h.symm.trans (a.validate_of_checks hc)) (by decide)
  rw [configured_eq hpairs, hpm]
  exact runMessage_congr rfl

end Configured

/-! ### The session -/

theorem runs_start_ok {b : Block} (hm : b.mode = .config) (hc : checks b = 0) :
    Runs [.start] b { b with mode := .run } [0x000000] :=
  Runs.command rfl ((respond_start hm).trans (openSession_ok hc))

theorem runs_start_error {b : Block} (hm : b.mode = .config) (hc : checks b ≠ 0) :
    Runs [.start] b (raise (checks b) b).1 [2#2 ++ 0#15 ++ checks b] := by
  rw [← errorWord_eq]
  exact Runs.command rfl ((respond_start hm).trans (openSession_fail hc))

theorem runs_msgCommands {b : Block} (hm : b.mode = .run) (msg : List Symbol) :
    Runs (msgCommands msg) b { b with k := (runMessage b b.k msg).2 }
      ((runMessage b b.k msg).1.map fun y => BitVec.ofNat 24 y.toNat) := by
  rintro s rfl
  rw [msgCommands, List.length_map]
  exact charStreamComputesRun msg s hm

theorem runs_rdk (b : Block) : Runs [.rdk] b b [0#9 ++ b.k.k1 ++ b.k.k2 ++ b.k.k3] := by
  rw [← offsetsWord_eq]
  exact Runs.command rfl rfl

theorem runs_stop (b : Block) : Runs [.stop] b (closeSession b) [0x000000] := runsOk_stop b

/-- After `START` the `CHAR` commands answer the output of the message, `RDK` its final triple, and `STOP` closes (R62). -/
theorem runs_bodyCommands {b : Block} {msg out : List Symbol} {k : Offsets} (hrun : runMessage b b.k msg = (out, k)) :
    Runs (bodyCommands true msg) { b with mode := .run } (closeSession { b with mode := .run, k := k })
      (out.map (fun y => BitVec.ofNat 24 y.toNat) ++ ([0#9 ++ k.k1 ++ k.k2 ++ k.k3] ++ [0x000000])) := by
  have hmsg := runs_msgCommands (b := { b with mode := .run }) rfl msg
  rw [runMessage_congr (b := { b with mode := .run }) (b' := b) rfl, hrun] at hmsg
  exact hmsg.append ((runs_rdk _).append (runs_stop _))

/-- Settles O59: the configuration commands leave `Transform`'s configuration, `START` makes `Transform`'s test, and the `CHAR`
commands compute its `Run`. -/
theorem commandSequenceComputesTransform : Obligations.CommandSequenceComputesTransform := by
  intro a s hpairs
  have hconfigure : Runs (configureCommands a) s.toBlock _ _ := runsOk_configureCommands a s.toBlock
  have hmode : (a.configured s.toBlock).mode = .config := configured_mode hpairs _
  have hchecks : checks (a.configured s.toBlock) = checks a.config := checks_configured hpairs _
  constructor
  · intro e herror
    obtain ⟨hc, rfl⟩ := (transform_eq_error_iff a e).1 herror
    have hopen := hconfigure.append (runs_start_error hmode (hchecks ▸ hc))
    rw [hchecks] at hopen
    exact ⟨_, hopen.append (runs_stop _) s rfl, by simp, rfl, rfl⟩
  · intro out k hok
    obtain ⟨hc, hrun⟩ := (transform_eq_ok_iff a (out, k)).1 hok
    rw [← runMessage_configured hpairs s.toBlock hc, ← configured_k hpairs s.toBlock] at hrun
    have hopen := hconfigure.append (runs_start_ok hmode (hchecks.trans hc))
    exact ⟨_, hopen.append (runs_bodyCommands hrun) s rfl, by simp, rfl, rfl, rfl⟩

end Sys2Proof.Machine
end

section
/-! PROOFS. The outcomes of a command word and the transitions of `MODE` (R136, R142, R146, R147, R151). -/

namespace Sys2Proof.Machine

/-! ### The three outcomes (R136) -/

/-- The answer to a word is `OK`, a refusal that keeps the block, or the error that `START` raises in `CONFIG` (R136). -/
theorem respondWord_cases (w : Word) (b : Block) :
    (∃ d, (respondWord w b).2 = .ok d) ∨ (∃ why, respondWord w b = refuse why b) ∨
    (decode w = .ok .start ∧ respondWord w b = raise (checks b) b) := by
  cases hd : decode w with
  | error e => exact .inr (.inl ⟨_, respondWord_error hd b⟩)
  | ok i =>
    rw [respondWord_ok hd]
    rcases respond_cases i b with hrefused | ⟨rfl, -, -, hraise⟩ | ⟨-, -, hok⟩
    · exact .inr (.inl hrefused)
    · exact .inr (.inr ⟨rfl, hraise⟩)
    · exact .inl hok

/-- Settles O12: the step answers `respondWord`, and each of its three outcomes has its own response code. -/
theorem threeOutcomesOfACommand : Obligations.ThreeOutcomesOfACommand := by
  intro s w rest hp
  refine ⟨_, _, step_word hp, rfl, rfl, ?_⟩
  rw [answer_toBlock]
  rcases respondWord_cases w s.toBlock with ⟨d, hok⟩ | ⟨why, hrefused⟩ | ⟨hd, hraise⟩
  · exact .inl (by rw [hok, responseCode_ok])
  · rw [hrefused]
    exact .inr (.inl ⟨responseCode_refused why, rfl⟩)
  · rw [hraise]
    exact .inr (.inr ⟨responseCode_error _, hd, rfl⟩)

/-- Settles O16: the response is the block's own, and only `START` in `CONFIG` has one of code 2. -/
theorem onlyStartRaises : Obligations.OnlyStartRaises := by
  intro s t w rest r hp hstep hr hcode
  rw [step_word_response hp hstep hr] at hcode
  exact start_of_respondWord_error hcode

/-- Settles O29: the raising branch of `START`, as `startOpensOrRaises` writes it out. -/
theorem faultEntryIsPrecise : Obligations.FaultEntryIsPrecise := by
  intro s t hm hc hexec
  obtain ⟨-, -, hraise, -, -⟩ := startOpensOrRaises
  rw [hraise s hm hc] at hexec
  cases hexec
  exact ⟨rfl, rfl, rfl, rfl, rfl, rfl, rfl, rfl, rfl, rfl, rfl, rfl⟩

/-! ### The transitions of `MODE` (R151) -/

/-- No command writes `MODE` but `STOP`, and `START` in `CONFIG` (R151). -/
theorem BlockMove.mode_eq {i : Instr} {b b' : Block} (hmove : BlockMove b i b') (hstop : i ≠ .stop)
    (hstart : i = .start → b.mode ≠ .config) : b'.mode = b.mode := by
  cases hmove with
  | keep => rfl
  | wiring tbl p val => exact setWiring_mode b tbl _
  | offset => rfl
  | plug x y => exact plugPair_mode x y b
  | opened hm => exact absurd hm (hstart rfl)
  | raised hm => exact absurd hm (hstart rfl)
  | advance => rfl
  | close => exact absurd rfl hstop

/-- The same for every word: one that spells no command writes nothing at all (R143, R151). -/
theorem respondWord_mode_eq {w : Word} {b : Block} (hstop : decode w ≠ .ok .stop)
    (hstart : decode w = .ok .start → b.mode ≠ .config) : (respondWord w b).1.mode = b.mode := by
  cases hd : decode w with
  | error e => rw [respondWord_error hd, refuse_fst]
  | ok i =>
    rw [respondWord_ok hd]
    exact (respond_move i b).mode_eq (fun hi => hstop (hi ▸ hd)) fun hi => hstart (hi ▸ hd)

/-- `STOP` is executed in every mode (R109, R117). -/
theorem respondWord_stop {w : Word} (hd : decode w = .ok .stop) (b : Block) :
    respondWord w b = respondOk 0 (closeSession b) :=
  (respondWord_ok hd b).trans (respond_admitted rfl rfl)

/-- `START` in `CONFIG` is executed (R109, R112). -/
theorem respondWord_start {w : Word} {b : Block} (hd : decode w = .ok .start) (hm : b.mode = .config) :
    respondWord w b = openSession b :=
  (respondWord_ok hd b).trans (respond_start hm)

/-- Settles O15: reset, `STOP` and `START` in `CONFIG` by their effects, every other word by `respondWord_mode_eq`. -/
theorem modeTransitions : Obligations.ModeTransitions := by
  intro s t hstep
  refine ⟨fun rest hp => ?_, fun w rest hp => ?_⟩
  · rw [step_reset hp] at hstep
    cases hstep
    rfl
  · rw [step_word hp] at hstep
    cases hstep
    rw [answer_toBlock]
    refine ⟨fun hd => ?_, fun hd hm hc => ?_, fun hd hm hc => ?_, fun hd hm => ?_, fun hstop hstart => ?_⟩
    · rw [respondWord_stop hd, respondOk_fst, closeSession_mode]
    · rw [respondWord_start hd hm, openSession_ok hc, respondOk_fst]
    · rw [respondWord_start hd hm, openSession_fail hc, raise_mode]
    · exact respondWord_mode_eq (by simp [hd]) fun _ => hm
    · exact respondWord_mode_eq hstop fun hd => absurd hd hstart

/-- Settles O17: in `FAULT` an idle step and every word but `STOP` keep the mode, and `STOP` closes the session. -/
theorem faultIsLeftOnlyByStopOrReset : Obligations.FaultIsLeftOnlyByStopOrReset := by
  intro s t hm hstep hleft
  rcases hp : s.pending with _ | ⟨w | _, rest⟩
  · rw [step_idle hp] at hstep
    cases hstep
    exact absurd hm hleft
  · rw [step_word hp] at hstep
    cases hstep
    rw [answer_toBlock] at hleft
    have hd : decode w = .ok .stop := by
      by_contra hstop
      exact hleft ((respondWord_mode_eq hstop fun _ => by simp [hm]).trans hm)
    rw [answer_toBlock, respondWord_stop hd, respondOk_fst]
    exact .inr ⟨w, rest, rfl, hd, rfl, rfl, ⟨rfl, rfl, rfl⟩, rfl, rfl, rfl, rfl, rfl⟩
  · exact .inl ⟨rest, rfl⟩

end Sys2Proof.Machine
end
